-- ==== Sys2Proof/Word.lean ====
section
/-! DEFINITION. The byte and the word of the machine.
00_scope.md R8 takes the word width W = 32 (decision D1; notes/assumptions/1.md), R11 a byte of 8 bits. -/

namespace Sys2Proof

/-- A byte: 8 bits, a natural in 0 .. 255 (00_scope.md R11). -/
abbrev Byte := BitVec 8

/-- The "address word": the one unsigned integer type of registers, addresses and literal operands
(00_scope.md R8, R10), of W = 32 bits. UNVERIFIED: the spec's decision D1, notes/assumptions/1.md. -/
abbrev Word := BitVec 32

/-- A register-index operand: one byte, an unsigned number in 0 .. 255 (30_encoding.md R84). -/
abbrev RegIdx := BitVec 8

end Sys2Proof
end

