-- ==== Sys2Proof/Config.lean ====
section
/-! DEFINITION. The numbers of one Machine that every file uses: the word width in bits and bytes, the largest word, the
largest number of side registers, and the values of the comparison flag (00_scope.md R8, 10_state.md R27).
The parameters a test could show to be otherwise stand where a repair may mend them: the reset values and the
construction arguments of State.reset in Machine/Params.lean, the opcode map `OPC` and the formats in Decode.lean, the
byte order of data memory in Machine/Ops.lean, `NEWLINE` and `utf8_valid` in Machine/Text.lean. -/

namespace Sys2Proof

/-- The three values of the comparison flag (10_state.md R27): the relation of `acc` to `x[reg]` at a `Compare`. -/
inductive Comparison
  | less
  | equal
  | greater
deriving DecidableEq, Repr

/-- A map `OPC` from the mnemonics to opcode bytes as plain data: the bytes in the order of 30_encoding.md R100 (00_scope.md R8). How a
mnemonic's byte is read from it, and the default map, stand in Decode.lean. -/
abbrev OpcodeMap := List Byte

namespace Config

/-- `W`, the word width in bits (00_scope.md R8). UNVERIFIED: decision D1, notes/assumptions/1.md. -/
def wordBits : Nat := 32

/-- `WB`, bytes per word, `W / 8` (00_scope.md R8). -/
def wordBytes : Nat := 4

/-- `MAXW`, the largest word; also the Program Builder's placeholder sentinel (00_scope.md R8). -/
def maxWord : Word := 0xFFFFFFFF#32

/-- The largest `NREG`: a register index is one byte (00_scope.md R8). UNVERIFIED: decision D11, notes/assumptions/11.md. -/
def maxRegs : Nat := 256

@[simp] theorem wordBits_eq : wordBits = 32 := rfl
@[simp] theorem wordBytes_eq : wordBytes = 4 := rfl
@[simp] theorem wordBits_eq_bytes : wordBits = 8 * wordBytes := rfl
@[simp] theorem maxRegs_eq : maxRegs = 256 := rfl
@[simp] theorem maxWord_toNat : maxWord.toNat = 4294967295 := rfl

end Config

end Sys2Proof
end

