-- ==== Sys2Proof/Syntax.lean ====
section
/-! DEFINITION. The syntax of the instruction set: one constructor for each of the 46 rows of spec/opcode_table.json, its
operands in the order of 30_encoding.md R100. `ret` stands for `Return`, since `return` is a word of Lean's. -/

namespace Sys2Proof

/-- An instruction value (30_encoding.md R100, R113): a mnemonic with operands of the kinds its format names. A word operand is a
`Word`, a register index a `RegIdx` (any byte; checked at execution, R84). `data` carries its stored length and its payload
apart, as R111 does, so that a `Data` whose length is wrong can be written and is refused by WellFormed and the encoder. -/
inductive Instr
  /-- `Nop`: 40_step_cycle.md R140. -/
  | nop
  /-- `Halt`: 40_step_cycle.md R141. -/
  | halt
  /-- `Load8 addr`: 41_data_movement.md R150. -/
  | load8 (addr : Word)
  /-- `Load16 addr`: 41_data_movement.md R151. -/
  | load16 (addr : Word)
  /-- `Load32 addr`: 41_data_movement.md R152. -/
  | load32 (addr : Word)
  /-- `Store8 addr`: 41_data_movement.md R153. -/
  | store8 (addr : Word)
  /-- `Store16 addr`: 41_data_movement.md R154. -/
  | store16 (addr : Word)
  /-- `Store32 addr`: 41_data_movement.md R155. -/
  | store32 (addr : Word)
  /-- `Set value`: 41_data_movement.md R156. -/
  | set (value : Word)
  /-- `SetRegister reg value`: 41_data_movement.md R157. -/
  | setRegister (reg : RegIdx) (value : Word)
  /-- `Deref8 reg`: 41_data_movement.md R158. -/
  | deref8 (reg : RegIdx)
  /-- `Deref16 reg`: 41_data_movement.md R159. -/
  | deref16 (reg : RegIdx)
  /-- `Deref32 reg`: 41_data_movement.md R160. -/
  | deref32 (reg : RegIdx)
  /-- `Swap reg`: 41_data_movement.md R161. -/
  | swap (reg : RegIdx)
  /-- `Write8 reg`: 41_data_movement.md R162. -/
  | write8 (reg : RegIdx)
  /-- `Write16 reg`: 41_data_movement.md R163. -/
  | write16 (reg : RegIdx)
  /-- `Write32 reg`: 41_data_movement.md R164. -/
  | write32 (reg : RegIdx)
  /-- `ReadStackPointer`: 42_stack_pointer_and_jumps.md R180. -/
  | readStackPointer
  /-- `WriteStackPointer`: 42_stack_pointer_and_jumps.md R181. -/
  | writeStackPointer
  /-- `Jump addr`: 42_stack_pointer_and_jumps.md R182. -/
  | jump (addr : Word)
  /-- `Call addr`: 42_stack_pointer_and_jumps.md R183. -/
  | call (addr : Word)
  /-- `Return`: 42_stack_pointer_and_jumps.md R184. -/
  | ret
  /-- `Increment`: 43_arithmetic_compare.md R197. -/
  | increment
  /-- `Decrement`: 43_arithmetic_compare.md R198. -/
  | decrement
  /-- `IncrementRegister reg`: 43_arithmetic_compare.md R199. -/
  | incrementRegister (reg : RegIdx)
  /-- `DecrementRegister reg`: 43_arithmetic_compare.md R200. -/
  | decrementRegister (reg : RegIdx)
  /-- `Add reg`: 43_arithmetic_compare.md R201. -/
  | add (reg : RegIdx)
  /-- `Sub reg`: 43_arithmetic_compare.md R202. -/
  | sub (reg : RegIdx)
  /-- `Mul reg`: 43_arithmetic_compare.md R203. -/
  | mul (reg : RegIdx)
  /-- `Div reg`: 43_arithmetic_compare.md R204. -/
  | div (reg : RegIdx)
  /-- `Compare reg`: 43_arithmetic_compare.md R205. -/
  | compare (reg : RegIdx)
  /-- `JumpEqual addr`: 44_conditional_jumps.md R221. -/
  | jumpEqual (addr : Word)
  /-- `JumpNotEqual addr`: 44_conditional_jumps.md R222. -/
  | jumpNotEqual (addr : Word)
  /-- `JumpGreater addr`: 44_conditional_jumps.md R223. -/
  | jumpGreater (addr : Word)
  /-- `JumpLess addr`: 44_conditional_jumps.md R224. -/
  | jumpLess (addr : Word)
  /-- `JumpGreaterEqual addr`: 44_conditional_jumps.md R225. -/
  | jumpGreaterEqual (addr : Word)
  /-- `JumpLessEqual addr`: 44_conditional_jumps.md R226. -/
  | jumpLessEqual (addr : Word)
  /-- `JumpZero addr`: 44_conditional_jumps.md R227. -/
  | jumpZero (addr : Word)
  /-- `JumpNonzero addr`: 44_conditional_jumps.md R228. -/
  | jumpNonzero (addr : Word)
  /-- `Push`: 45_stack.md R242. -/
  | push
  /-- `Pop`: 45_stack.md R243. -/
  | pop
  /-- `PushRegister reg`: 45_stack.md R244. -/
  | pushRegister (reg : RegIdx)
  /-- `PopRegister reg`: 45_stack.md R245. -/
  | popRegister (reg : RegIdx)
  /-- `CopyCodeMemory source size`: 46_copy_syscall.md R255. -/
  | copyCodeMemory (source : Word) (size : Word)
  /-- `Syscall index`: 46_copy_syscall.md R260. -/
  | syscall (index : Word)
  /-- `Data L payload`: 40_step_cycle.md R142. -/
  | data (length : Word) (payload : List Byte)
deriving DecidableEq, Repr

end Sys2Proof
end

