-- ==== Sys2Proof/WellFormed.lean ====
section
/-! DEFINITION. Which instruction values have an encoding: 30_encoding.md R111 and R113. The operand ranges of R113 are
the types of the operands; the one check left is the stored length of `Data`. -/

namespace Sys2Proof

/-- An instruction value is well formed: every operand is in range (30_encoding.md R113, by its type), and a `Data` stores the
length of its payload (R111). A payload of 2^32 bytes or more is never well formed: no word is its length. -/
def Instr.wf : Instr → Bool
  | .nop => true
  | .halt => true
  | .load8 _ => true
  | .load16 _ => true
  | .load32 _ => true
  | .store8 _ => true
  | .store16 _ => true
  | .store32 _ => true
  | .set _ => true
  | .setRegister _ _ => true
  | .deref8 _ => true
  | .deref16 _ => true
  | .deref32 _ => true
  | .swap _ => true
  | .write8 _ => true
  | .write16 _ => true
  | .write32 _ => true
  | .readStackPointer => true
  | .writeStackPointer => true
  | .jump _ => true
  | .call _ => true
  | .ret => true
  | .increment => true
  | .decrement => true
  | .incrementRegister _ => true
  | .decrementRegister _ => true
  | .add _ => true
  | .sub _ => true
  | .mul _ => true
  | .div _ => true
  | .compare _ => true
  | .jumpEqual _ => true
  | .jumpNotEqual _ => true
  | .jumpGreater _ => true
  | .jumpLess _ => true
  | .jumpGreaterEqual _ => true
  | .jumpLessEqual _ => true
  | .jumpZero _ => true
  | .jumpNonzero _ => true
  | .push => true
  | .pop => true
  | .pushRegister _ => true
  | .popRegister _ => true
  | .copyCodeMemory _ _ => true
  | .syscall _ => true
  | .data length payload => length.toNat == payload.length

end Sys2Proof
end

