-- ==== Sys2Proof/Decode.lean ====
section
/-! DEFINITION. The Instruction Codec: byte order of encoded operands, the opcode table `OPC`, the formats, the decoder and,
after it, the encoder (30_encoding.md R80 to R113). Both take the map `OPC` as an argument, as R100 asks; `opcode` is its
default, and `OpcodeMap` a map as plain data, the form in which a Machine holds its own. -/

namespace Sys2Proof

/-! ### Big-endian bytes (00_scope.md R11) -/

/-- `be(n, v)`: the n-byte big-endian spelling of `v`, the most significant byte first (00_scope.md R11). For `v` of more than
n bytes it spells `v mod 2^(8n)`. -/
def be : Nat → Nat → List Byte
  | 0, _ => []
  | n + 1, v => BitVec.ofNat 8 (v / 256 ^ n) :: be n v

/-- `unbe`, the inverse of `be`: the number whose big-endian spelling the bytes are (00_scope.md R11). -/
def unbe : List Byte → Nat
  | [] => 0
  | b :: bs => 256 ^ bs.length * b.toNat + unbe bs

/-- The word operand at byte offset `k` of an encoded instruction: `unbe([b_k .. b_(k+WB-1)])` (00_scope.md R14, 30_encoding.md
R81). -/
def wordAt (buf : List Byte) (k : Nat) : Word :=
  BitVec.ofNat 32 (unbe ((buf.drop k).take Config.wordBytes))

/-- The byte at offset `k`, such as a register index (30_encoding.md R84). -/
def byteAt (buf : List Byte) (k : Nat) : Byte :=
  buf.getD k 0

/-! ### The opcode table (30_encoding.md R86, R100) -/

/-- The six formats of 30_encoding.md R86. -/
inductive Format
  | n
  | w
  | r
  | rw
  | ww
  | d
deriving DecidableEq, Repr

/-- How many bytes the decoder needs before it can read the operands (`need` in 30_encoding.md R103): the size column of R86; for
`Data` the opcode and the length word. -/
def Format.need : Format → Nat
  | .n => 1
  | .w => 1 + Config.wordBytes
  | .r => 2
  | .rw => 2 + Config.wordBytes
  | .ww => 1 + 2 * Config.wordBytes
  | .d => 1 + Config.wordBytes

/-- The 46 mnemonics of 30_encoding.md R100. UNVERIFIED: that the set is closed is decision D3, notes/assumptions/3.md. -/
inductive Mnemonic
  | nop
  | halt
  | load8
  | load16
  | load32
  | store8
  | store16
  | store32
  | set
  | setRegister
  | deref8
  | deref16
  | deref32
  | swap
  | write8
  | write16
  | write32
  | readStackPointer
  | writeStackPointer
  | jump
  | call
  | ret
  | increment
  | decrement
  | incrementRegister
  | decrementRegister
  | add
  | sub
  | mul
  | div
  | compare
  | jumpEqual
  | jumpNotEqual
  | jumpGreater
  | jumpLess
  | jumpGreaterEqual
  | jumpLessEqual
  | jumpZero
  | jumpNonzero
  | push
  | pop
  | pushRegister
  | popRegister
  | copyCodeMemory
  | syscall
  | data
deriving DecidableEq, Repr

/-- All mnemonics, in the order of 30_encoding.md R100. -/
def Mnemonic.all : List Mnemonic :=
  [.nop, .halt, .load8, .load16, .load32, .store8,
   .store16, .store32, .set, .setRegister, .deref8, .deref16,
   .deref32, .swap, .write8, .write16, .write32, .readStackPointer,
   .writeStackPointer, .jump, .call, .ret, .increment, .decrement,
   .incrementRegister, .decrementRegister, .add, .sub, .mul, .div,
   .compare, .jumpEqual, .jumpNotEqual, .jumpGreater, .jumpLess, .jumpGreaterEqual,
   .jumpLessEqual, .jumpZero, .jumpNonzero, .push, .pop, .pushRegister,
   .popRegister, .copyCodeMemory, .syscall, .data]

/-- The format column of 30_encoding.md R100. UNVERIFIED: that `Syscall` has format W is decision D4, notes/assumptions/4.md. -/
def Mnemonic.format : Mnemonic → Format
  | .nop => .n
  | .halt => .n
  | .load8 => .w
  | .load16 => .w
  | .load32 => .w
  | .store8 => .w
  | .store16 => .w
  | .store32 => .w
  | .set => .w
  | .setRegister => .rw
  | .deref8 => .r
  | .deref16 => .r
  | .deref32 => .r
  | .swap => .r
  | .write8 => .r
  | .write16 => .r
  | .write32 => .r
  | .readStackPointer => .n
  | .writeStackPointer => .n
  | .jump => .w
  | .call => .w
  | .ret => .n
  | .increment => .n
  | .decrement => .n
  | .incrementRegister => .r
  | .decrementRegister => .r
  | .add => .r
  | .sub => .r
  | .mul => .r
  | .div => .r
  | .compare => .r
  | .jumpEqual => .w
  | .jumpNotEqual => .w
  | .jumpGreater => .w
  | .jumpLess => .w
  | .jumpGreaterEqual => .w
  | .jumpLessEqual => .w
  | .jumpZero => .w
  | .jumpNonzero => .w
  | .push => .n
  | .pop => .n
  | .pushRegister => .r
  | .popRegister => .r
  | .copyCodeMemory => .ww
  | .syscall => .w
  | .data => .d

/-- The default map `OPC`: the opcode column of 30_encoding.md R100. UNVERIFIED: the numbers are decision D2,
notes/assumptions/2.md. -/
def opcode : Mnemonic → Byte
  | .nop => 0x00#8
  | .halt => 0x01#8
  | .load8 => 0x02#8
  | .load16 => 0x03#8
  | .load32 => 0x04#8
  | .store8 => 0x05#8
  | .store16 => 0x06#8
  | .store32 => 0x07#8
  | .set => 0x08#8
  | .setRegister => 0x09#8
  | .deref8 => 0x0A#8
  | .deref16 => 0x0B#8
  | .deref32 => 0x0C#8
  | .swap => 0x0D#8
  | .write8 => 0x0E#8
  | .write16 => 0x0F#8
  | .write32 => 0x10#8
  | .readStackPointer => 0x11#8
  | .writeStackPointer => 0x12#8
  | .jump => 0x13#8
  | .call => 0x14#8
  | .ret => 0x15#8
  | .increment => 0x16#8
  | .decrement => 0x17#8
  | .incrementRegister => 0x18#8
  | .decrementRegister => 0x19#8
  | .add => 0x1A#8
  | .sub => 0x1B#8
  | .mul => 0x1C#8
  | .div => 0x1D#8
  | .compare => 0x1E#8
  | .jumpEqual => 0x1F#8
  | .jumpNotEqual => 0x20#8
  | .jumpGreater => 0x21#8
  | .jumpLess => 0x22#8
  | .jumpGreaterEqual => 0x23#8
  | .jumpLessEqual => 0x24#8
  | .jumpZero => 0x25#8
  | .jumpNonzero => 0x26#8
  | .push => 0x27#8
  | .pop => 0x28#8
  | .pushRegister => 0x29#8
  | .popRegister => 0x2A#8
  | .copyCodeMemory => 0x2B#8
  | .syscall => 0x2C#8
  | .data => 0x2D#8

/-- The opcode byte of a mnemonic in a map given as data: mnemonics are declared in the order of 30_encoding.md R100. -/
def OpcodeMap.byte (t : OpcodeMap) (m : Mnemonic) : Byte :=
  t.getD m.ctorIdx 0

/-- A map as data. -/
def OpcodeMap.ofMap (opc : Mnemonic → Byte) : OpcodeMap :=
  Mnemonic.all.map opc

/-- The default `OPC` as data. -/
def OpcodeMap.standard : OpcodeMap :=
  OpcodeMap.ofMap opcode

/-- A map a Machine may be constructed with: one byte for each mnemonic, and injective, which is all that may be assumed of it
(30_encoding.md R100). -/
def OpcodeMap.Legal (t : OpcodeMap) : Prop :=
  t.length = Mnemonic.all.length ∧ Function.Injective t.byte

/-- The mnemonic of an instruction value. -/
def Instr.mnemonic : Instr → Mnemonic
  | .nop => .nop
  | .halt => .halt
  | .load8 _ => .load8
  | .load16 _ => .load16
  | .load32 _ => .load32
  | .store8 _ => .store8
  | .store16 _ => .store16
  | .store32 _ => .store32
  | .set _ => .set
  | .setRegister _ _ => .setRegister
  | .deref8 _ => .deref8
  | .deref16 _ => .deref16
  | .deref32 _ => .deref32
  | .swap _ => .swap
  | .write8 _ => .write8
  | .write16 _ => .write16
  | .write32 _ => .write32
  | .readStackPointer => .readStackPointer
  | .writeStackPointer => .writeStackPointer
  | .jump _ => .jump
  | .call _ => .call
  | .ret => .ret
  | .increment => .increment
  | .decrement => .decrement
  | .incrementRegister _ => .incrementRegister
  | .decrementRegister _ => .decrementRegister
  | .add _ => .add
  | .sub _ => .sub
  | .mul _ => .mul
  | .div _ => .div
  | .compare _ => .compare
  | .jumpEqual _ => .jumpEqual
  | .jumpNotEqual _ => .jumpNotEqual
  | .jumpGreater _ => .jumpGreater
  | .jumpLess _ => .jumpLess
  | .jumpGreaterEqual _ => .jumpGreaterEqual
  | .jumpLessEqual _ => .jumpLessEqual
  | .jumpZero _ => .jumpZero
  | .jumpNonzero _ => .jumpNonzero
  | .push => .push
  | .pop => .pop
  | .pushRegister _ => .pushRegister
  | .popRegister _ => .popRegister
  | .copyCodeMemory _ _ => .copyCodeMemory
  | .syscall _ => .syscall
  | .data _ _ => .data

/-- The payload length of `Data`; 0 for every other instruction. -/
def Instr.payloadLength : Instr → Nat
  | .nop => 0
  | .halt => 0
  | .load8 _ => 0
  | .load16 _ => 0
  | .load32 _ => 0
  | .store8 _ => 0
  | .store16 _ => 0
  | .store32 _ => 0
  | .set _ => 0
  | .setRegister _ _ => 0
  | .deref8 _ => 0
  | .deref16 _ => 0
  | .deref32 _ => 0
  | .swap _ => 0
  | .write8 _ => 0
  | .write16 _ => 0
  | .write32 _ => 0
  | .readStackPointer => 0
  | .writeStackPointer => 0
  | .jump _ => 0
  | .call _ => 0
  | .ret => 0
  | .increment => 0
  | .decrement => 0
  | .incrementRegister _ => 0
  | .decrementRegister _ => 0
  | .add _ => 0
  | .sub _ => 0
  | .mul _ => 0
  | .div _ => 0
  | .compare _ => 0
  | .jumpEqual _ => 0
  | .jumpNotEqual _ => 0
  | .jumpGreater _ => 0
  | .jumpLess _ => 0
  | .jumpGreaterEqual _ => 0
  | .jumpLessEqual _ => 0
  | .jumpZero _ => 0
  | .jumpNonzero _ => 0
  | .push => 0
  | .pop => 0
  | .pushRegister _ => 0
  | .popRegister _ => 0
  | .copyCodeMemory _ _ => 0
  | .syscall _ => 0
  | .data length _ => length.toNat

/-- `size(i)`, the encoded length of an instruction in bytes (30_encoding.md R87). -/
def Instr.size (i : Instr) : Nat :=
  i.mnemonic.format.need + i.payloadLength

/-! ### The decoder (30_encoding.md R103 to R107) -/

/-- What the decoder answers: an instruction, or one of the two codec errors. -/
inductive Decoded
  /-- `buf` begins with this instruction. -/
  | instr (i : Instr)
  /-- Fewer bytes remain than the instruction needs (30_encoding.md R104). -/
  | truncated
  /-- The opcode byte is not in the table (30_encoding.md R101). -/
  | unknownOpcode (op : Byte)
deriving DecidableEq, Repr

/-- The mnemonic an opcode byte spells under the map `opc`, if any. -/
def mnemonicOf (opc : Mnemonic → Byte) (op : Byte) : Option Mnemonic :=
  Mnemonic.all.find? (fun m => opc m == op)

/-- The instruction a mnemonic and its operand bytes spell: the operand layout of 30_encoding.md R86, with `buf` beginning at
the opcode byte. -/
def readOperands (m : Mnemonic) (buf : List Byte) : Instr :=
  match m with
  | .nop => .nop
  | .halt => .halt
  | .load8 => .load8 (wordAt buf 1)
  | .load16 => .load16 (wordAt buf 1)
  | .load32 => .load32 (wordAt buf 1)
  | .store8 => .store8 (wordAt buf 1)
  | .store16 => .store16 (wordAt buf 1)
  | .store32 => .store32 (wordAt buf 1)
  | .set => .set (wordAt buf 1)
  | .setRegister => .setRegister (byteAt buf 1) (wordAt buf 2)
  | .deref8 => .deref8 (byteAt buf 1)
  | .deref16 => .deref16 (byteAt buf 1)
  | .deref32 => .deref32 (byteAt buf 1)
  | .swap => .swap (byteAt buf 1)
  | .write8 => .write8 (byteAt buf 1)
  | .write16 => .write16 (byteAt buf 1)
  | .write32 => .write32 (byteAt buf 1)
  | .readStackPointer => .readStackPointer
  | .writeStackPointer => .writeStackPointer
  | .jump => .jump (wordAt buf 1)
  | .call => .call (wordAt buf 1)
  | .ret => .ret
  | .increment => .increment
  | .decrement => .decrement
  | .incrementRegister => .incrementRegister (byteAt buf 1)
  | .decrementRegister => .decrementRegister (byteAt buf 1)
  | .add => .add (byteAt buf 1)
  | .sub => .sub (byteAt buf 1)
  | .mul => .mul (byteAt buf 1)
  | .div => .div (byteAt buf 1)
  | .compare => .compare (byteAt buf 1)
  | .jumpEqual => .jumpEqual (wordAt buf 1)
  | .jumpNotEqual => .jumpNotEqual (wordAt buf 1)
  | .jumpGreater => .jumpGreater (wordAt buf 1)
  | .jumpLess => .jumpLess (wordAt buf 1)
  | .jumpGreaterEqual => .jumpGreaterEqual (wordAt buf 1)
  | .jumpLessEqual => .jumpLessEqual (wordAt buf 1)
  | .jumpZero => .jumpZero (wordAt buf 1)
  | .jumpNonzero => .jumpNonzero (wordAt buf 1)
  | .push => .push
  | .pop => .pop
  | .pushRegister => .pushRegister (byteAt buf 1)
  | .popRegister => .popRegister (byteAt buf 1)
  | .copyCodeMemory => .copyCodeMemory (wordAt buf 1) (wordAt buf 5)
  | .syscall => .syscall (wordAt buf 1)
  | .data => .data (wordAt buf 1) ((buf.drop 5).take (wordAt buf 1).toNat)

/-- `decode(buf)` under the opcode map `opc`, the algorithm of 30_encoding.md R103: the opcode is examined before the length
(R105), and the lengths are natural numbers. -/
def decodeWith (opc : Mnemonic → Byte) (buf : List Byte) : Decoded :=
  match buf with
  | [] => .truncated
  | op :: _ =>
    match mnemonicOf opc op with
    | none => .unknownOpcode op
    | some m =>
      if buf.length < m.format.need then .truncated
      else if buf.length < (readOperands m buf).size then .truncated
      else .instr (readOperands m buf)

/-- `decode(buf)` with the default opcode map (30_encoding.md R100, R103). -/
def decode (buf : List Byte) : Decoded :=
  decodeWith opcode buf

/-! ### The encoder (30_encoding.md R110, R111) -/

/-- The bytes of a word operand (30_encoding.md R81). -/
def wordBytesOf (v : Word) : List Byte :=
  be Config.wordBytes v.toNat

/-- The operand bytes of an instruction, after its opcode byte (30_encoding.md R86, R110). -/
def operandBytes : Instr → List Byte
  | .nop => []
  | .halt => []
  | .load8 v => wordBytesOf v
  | .load16 v => wordBytesOf v
  | .load32 v => wordBytesOf v
  | .store8 v => wordBytesOf v
  | .store16 v => wordBytesOf v
  | .store32 v => wordBytesOf v
  | .set v => wordBytesOf v
  | .setRegister r v => r :: wordBytesOf v
  | .deref8 r => [r]
  | .deref16 r => [r]
  | .deref32 r => [r]
  | .swap r => [r]
  | .write8 r => [r]
  | .write16 r => [r]
  | .write32 r => [r]
  | .readStackPointer => []
  | .writeStackPointer => []
  | .jump v => wordBytesOf v
  | .call v => wordBytesOf v
  | .ret => []
  | .increment => []
  | .decrement => []
  | .incrementRegister r => [r]
  | .decrementRegister r => [r]
  | .add r => [r]
  | .sub r => [r]
  | .mul r => [r]
  | .div r => [r]
  | .compare r => [r]
  | .jumpEqual v => wordBytesOf v
  | .jumpNotEqual v => wordBytesOf v
  | .jumpGreater v => wordBytesOf v
  | .jumpLess v => wordBytesOf v
  | .jumpGreaterEqual v => wordBytesOf v
  | .jumpLessEqual v => wordBytesOf v
  | .jumpZero v => wordBytesOf v
  | .jumpNonzero v => wordBytesOf v
  | .push => []
  | .pop => []
  | .pushRegister r => [r]
  | .popRegister r => [r]
  | .copyCodeMemory s n => wordBytesOf s ++ wordBytesOf n
  | .syscall v => wordBytesOf v
  | .data length payload => wordBytesOf length ++ payload

/-- `encode(i)` under the opcode map `opc` (30_encoding.md R110). The one refusal is a `Data` whose stored length is not its
payload's (R111). -/
def encodeWith (opc : Mnemonic → Byte) (i : Instr) : Option (List Byte) :=
  if i.wf then some (opc i.mnemonic :: operandBytes i) else none

/-- `encode(i)` with the default opcode map (30_encoding.md R100, R110). -/
def encode (i : Instr) : Option (List Byte) :=
  encodeWith opcode i

/-! ### Words numbered as spec/opcode_table.json numbers them -/

/-- The first `n` bytes of `w`, bit 0 of `w` the least significant bit of the first byte and later bytes counting on. -/
def tableBytes : Nat → Nat → List Byte
  | 0, _ => []
  | n + 1, w => BitVec.ofNat 8 w :: tableBytes n (w / 256)

/-- The bytes of the instruction whose first `nbits` bits are `w`, every later bit 0: padded to the 9 bytes of the longest fixed
format, and, where the first byte is the opcode of `Data`, by as many more zero bytes as its length word says, so that its
payload is there. -/
def tableInstrBytes (nbits w : Nat) : List Byte :=
  let head := tableBytes (nbits / 8) w ++ List.replicate Format.ww.need 0
  if byteAt head 0 = opcode .data then head ++ List.replicate (wordAt head 1).toNat 0 else head

/-- The instruction the decoder reads from an instruction whose bits are `w`, numbered as spec/opcode_table.json numbers them. -/
def decodeTableWord (nbits w : Nat) : Option Instr :=
  match decode (tableInstrBytes nbits w) with
  | .instr i => some i
  | .truncated => none
  | .unknownOpcode _ => none

end Sys2Proof
end

