-- ==== Sys2Proof/Machine/Params.lean ====
section
/-! DEFINITION. The reset values of 10_state.md R36 and the construction arguments State.reset is built from
(00_scope.md R8). They stand here, and not in State.lean, so that a repair may mend them. -/

namespace Sys2Proof.Config

/-- Reset value of `pc` (10_state.md R24, R36). UNVERIFIED: decision D8, notes/assumptions/8.md. -/
def resetPc : Word := 0

/-- Reset value of `acc` (10_state.md R21, R36). UNVERIFIED: decision D9, notes/assumptions/9.md. -/
def resetAcc : Word := 0

/-- Reset value of every side register (10_state.md R22, R36). UNVERIFIED: decision D9, notes/assumptions/9.md. -/
def resetSideReg : Word := 0

/-- Reset value of `zf` (10_state.md R26, R36). UNVERIFIED: decision D10, notes/assumptions/10.md. -/
def resetZf : Bool := false

/-- What a byte of `MEM` that no write has changed reads as: its reset value (10_state.md R32, R36). UNVERIFIED: decision
D9, notes/assumptions/9.md. -/
def resetByte : Byte := 0

/-- `RESET_CF`, the comparison flag's reset value in State.reset. The spec leaves it OPEN with default `Equal` (10_state.md R27);
State.construct takes it as an argument. DESIGN CHOICE: notes/assumptions/10.md. -/
def resetCf : Comparison := .equal

/-- `MEM_SIZE` in State.reset: the largest the spec allows (00_scope.md R8); State.construct takes it as an argument.
DESIGN CHOICE: notes/assumptions/11.md. -/
def resetMemSize : Word := maxWord

/-- `NREG` in State.reset: the largest the spec allows (00_scope.md R8); State.construct takes it as an argument.
DESIGN CHOICE: notes/assumptions/11.md. -/
def resetNreg : Nat := maxRegs

/-- `OPC` in State.reset: the spec leaves it OPEN with this default (30_encoding.md R100, 92_eei_decisions.md D2); State.construct takes
it as an argument. DESIGN CHOICE: notes/assumptions/11.md. -/
def resetOpc : OpcodeMap := OpcodeMap.standard

/-- `EXE` in State.reset: no program has been loaded; State.construct takes it as an argument. DESIGN CHOICE:
notes/assumptions/11.md and 12.md. -/
def resetExe : List Byte := []

end Sys2Proof.Config
end

