-- ==== Sys2Proof/Machine/State.lean ====
section
/-! DEFINITION. The state of one Machine (10_state.md), the causes of failure (60_exceptions.md R282), the reasons the model
itself stops, and reset, which is construction (70_reset_and_hazards.md R320, R321). -/

namespace Sys2Proof.Machine

/-- The eleven causes of failure, each with the info 60_exceptions.md R282 records with it. -/
inductive Failure
  /-- Fetch with `pc >= EXE_LEN`, or a `CopyCodeMemory` whose source range leaves `EXE`; the offending `EXE` address. -/
  | programOutOfBounds (addr : Word)
  /-- Fewer bytes remain in `EXE` from `pc` than the instruction needs; `pc` of the instruction. -/
  | decodeTruncated (pc : Word)
  /-- `EXE[pc]` is not in the opcode table; `pc` and the opcode byte. -/
  | decodeUnknownOpcode (pc : Word) (op : Byte)
  /-- An access of n bytes at a with `a + n > MEM_SIZE`; its start address. -/
  | memoryOutOfBounds (addr : Word)
  /-- A push with `sp < WB`. -/
  | stackOverflow
  /-- A pop with `sp + WB > MEM_SIZE`. -/
  | stackUnderflow
  /-- `Div r` with `x[r] = 0`. -/
  | divisionByZero
  /-- `Syscall index` with `index >= 3`; the index. -/
  | unknownSyscall (index : Word)
  /-- A register operand `r >= NREG`; the register index. -/
  | registerOutOfRange (reg : RegIdx)
  /-- No zero byte in `MEM[acc .. MEM_SIZE-1]` for a print syscall; the start address. -/
  | stringUnterminated (addr : Word)
  /-- The bytes before the terminator are not well-formed UTF-8; the start address. -/
  | stringInvalidUtf8 (addr : Word)
deriving DecidableEq, Repr

/-- `status` (10_state.md R30): running, or one of the two terminal states. -/
inductive Status
  | running
  | halted
  | failed (cause : Failure)
deriving DecidableEq, Repr

/-- The reasons the model itself stops. An error of the program is not among them: it is a next state whose `status` is
`failed` (60_exceptions.md R284). -/
inductive Fault
  /-- Raised by `step` on a Machine that is `Halted`: "must not be stepped further" and no step exists (40_step_cycle.md R136,
  93_implementation_defined.md U2). Safe: the model has no transition there. -/
  | steppedHalted
  /-- Raised by `step` on a Machine that is `Failed`: as for `steppedHalted` (40_step_cycle.md R136). Safe. -/
  | steppedFailed
deriving DecidableEq, Repr

/-- The reasons an instruction has no meaning in the model. -/
inductive Refusal
  /-- Raised by an arm of `exec` whose instruction has no meaning yet. Safe. No arm raises it: all 46 have one. -/
  | notModelled (mnemonic : String)
deriving DecidableEq, Repr

/-- Data memory `MEM` as the list of its bytes that differ from the reset value, addresses strictly rising; an address that is
not listed reads as `Config.resetByte` (10_state.md R32). Its operations and its canonical form are in Ops.lean. -/
abbrev Memory := List Host.Cell

/-- The state of a Machine (10_state.md R20 to R36). `memSize`, `exe`, `opc` and the number of side registers are the parameters
`MEM_SIZE`, `EXE`, `OPC` and `NREG` of the Machine, which no step changes (R34; DESIGN CHOICE to hold them here: notes/assumptions/13.md). -/
@[ext]
structure State where
  /-- The main register (R21). -/
  acc : Word
  /-- The side registers `x[0] .. x[NREG-1]`; `NREG` is their number (R22). -/
  regs : List Word
  /-- The instruction pointer, an address into `EXE` (R24). -/
  pc : Word
  /-- The stack pointer, an address into `MEM` (R29). -/
  sp : Word
  /-- The zero flag (R26). -/
  zf : Bool
  /-- The comparison flag (R27). -/
  cf : Comparison
  /-- Running, halted or failed (R30). -/
  status : Status
  /-- `OUT`: the bytes handed to the host text sink since reset, oldest first (R31). -/
  out : List Byte
  /-- Data memory `MEM` (R32). -/
  mem : Memory
  /-- `MEM_SIZE`, the number of bytes of `MEM` (00_scope.md R8). -/
  memSize : Word
  /-- Program memory `EXE`; its length is `EXE_LEN` (R32). -/
  exe : List Byte
  /-- `OPC`, the opcode map this Machine decodes with (00_scope.md R8, R34). -/
  opc : OpcodeMap
deriving DecidableEq, Repr

namespace State

/-- Construction of a Machine, which is reset (70_reset_and_hazards.md R320, R321; 10_state.md R36), from `EXE`, `MEM_SIZE` and
`NREG`; `cf` and `opc` are the parameters `RESET_CF` (10_state.md R27) and `OPC` (30_encoding.md R100), which the spec leaves OPEN. -/
def construct (exe : List Byte) (memSize : Word) (nreg : Nat) (cf : Comparison) (opc : OpcodeMap) : State where
  acc := Config.resetAcc
  regs := List.replicate nreg Config.resetSideReg
  pc := Config.resetPc
  sp := memSize
  zf := Config.resetZf
  cf := cf
  status := .running
  out := []
  mem := []
  memSize := memSize
  exe := exe
  opc := opc

/-- The machine right after reset, with no program loaded, from the construction arguments of Machine/Params.lean
(notes/assumptions/11.md, 12.md). -/
def reset : State :=
  construct Config.resetExe Config.resetMemSize Config.resetNreg Config.resetCf Config.resetOpc

end State

end Sys2Proof.Machine
end

