-- ==== Sys2Proof/Machine/Ops.lean ====
section
/-! DEFINITION. The named operations over memory, registers, the stack and the output, and raising a failure: the pseudocode
primitives of 00_scope.md R13 and 45_stack.md R240, R241. A primitive that may raise answers an `Except Failure`; a meaning
passes it to `State.orRaise`, which raises the failure in the state the instruction began from, so a failing instruction
writes nothing (60_exceptions.md R284). -/

namespace Sys2Proof.Machine

/-! ### Bytes of data memory -/

/-- The byte at address `a`; an address that is not listed reads as the reset value (10_state.md R32). -/
def Memory.read : Memory → Nat → Byte
  | [], _ => Config.resetByte
  | (k, b) :: rest, a => if k = a then b else Memory.read rest a

/-- The memory with nothing listed at address `a`, so that it reads as the reset value there. -/
def Memory.clear (m : Memory) (a : Nat) : Memory :=
  m.filter fun c => c.1 != a

/-- The memory with `(a, b)` listed, before the first listed address above `a`. -/
def Memory.place : Memory → Nat → Byte → Memory
  | [], a, b => [(a, b)]
  | (k, c) :: rest, a, b => if a < k then (a, b) :: (k, c) :: rest else (k, c) :: Memory.place rest a b

/-- Write one byte, keeping the canonical form: the reset value is not listed. -/
def Memory.write (m : Memory) (a : Nat) (b : Byte) : Memory :=
  if b = Config.resetByte then m.clear a else (m.clear a).place a b

/-- The bytes at `a .. a+n-1`, the lowest address first. -/
def Memory.readBytes (m : Memory) : Nat → Nat → List Byte
  | _, 0 => []
  | a, n + 1 => m.read a :: m.readBytes (a + 1) n

/-- Write consecutive bytes from `a` on, the lowest address first. -/
def Memory.writeBytes (m : Memory) : Nat → List Byte → Memory
  | _, [] => m
  | a, b :: bs => (m.write a b).writeBytes (a + 1) bs

/-- The canonical form: addresses strictly rising, and no byte listed that equals what an unlisted address reads as. -/
def Memory.wf : Memory → Bool
  | [] => true
  | (k, b) :: rest => b != Config.resetByte && rest.all (fun c => k < c.1) && Memory.wf rest

/-- The value of a multi-byte access: big-endian (20_memory.md R54). UNVERIFIED: decision D5, notes/assumptions/5.md. -/
def composeData (bytes : List Byte) : Nat :=
  unbe bytes

/-- The `n` bytes a multi-byte access stores for `v`, the lowest address first: big-endian (20_memory.md R54). UNVERIFIED:
decision D5, notes/assumptions/5.md. -/
def splitData (n v : Nat) : List Byte :=
  be n v

namespace State

/-! ### Fields -/

/-- `acc <- v` (10_state.md R21). -/
def setAcc (s : State) (v : Word) : State := { s with acc := v }

/-- `pc <- target` (00_scope.md R13). -/
def setPc (s : State) (v : Word) : State := { s with pc := v }

/-- `sp <- v` (10_state.md R29). -/
def setSp (s : State) (v : Word) : State := { s with sp := v }

/-- `zf <- b` (10_state.md R26). -/
def setZf (s : State) (b : Bool) : State := { s with zf := b }

/-- `cf <- c` (10_state.md R27). -/
def setCf (s : State) (c : Comparison) : State := { s with cf := c }

/-- `status <- v` (10_state.md R30). -/
def setStatus (s : State) (v : Status) : State := { s with status := v }

/-- Replace the bytes of `MEM`. -/
def setMem (s : State) (m : Memory) : State := { s with mem := m }

/-- Write side register `i` once its index has been checked; an index without a register writes nothing. -/
def setReg (s : State) (reg : RegIdx) (v : Word) : State := { s with regs := s.regs.set reg.toNat v }

/-- `Emit(bytes)`: `OUT <- OUT ++ bytes` (00_scope.md R13, 10_state.md R31). -/
def emit (s : State) (bytes : List Byte) : State := { s with out := s.out ++ bytes }

/-- `NREG`, the number of side registers (10_state.md R22). -/
def nreg (s : State) : Nat := s.regs.length

/-! ### Raising a failure (60_exceptions.md R284) -/

/-- `raise C(info)`: the ONE operation that takes an exceptional condition. `status <- Failed(C, info)` and nothing else is
written; `pc` is what it is when the condition is judged (60_exceptions.md R284, R288). There is no return beside it: the
failure is terminal and trap return does not exist (R285, R289). UNVERIFIED: decision D13, notes/assumptions/15.md. -/
def raise (s : State) (c : Failure) : State := s.setStatus (.failed c)

/-- Go on with the value a primitive answers, or raise its failure in this state. -/
def orRaise {α : Type} (s : State) (r : Except Failure α) (k : α → Host.Outcome State Fault Refusal) :
    Host.Outcome State Fault Refusal :=
  match r with
  | .error c => .next (s.raise c)
  | .ok v => k v

/-! ### Registers (00_scope.md R13) -/

/-- `chk_reg(i)`: `if i >= NREG then raise RegisterOutOfRange(i)` (00_scope.md R13, 60_exceptions.md R295). -/
def chkReg (s : State) (reg : RegIdx) : Except Failure Unit :=
  if reg.toNat < s.nreg then .ok () else .error (.registerOutOfRange reg)

/-- `x[i]` read: the index is checked first (00_scope.md R13). -/
def readReg (s : State) (reg : RegIdx) : Except Failure Word :=
  match s.chkReg reg with
  | .error c => .error c
  | .ok _ => .ok (s.regs.getD reg.toNat Config.resetSideReg)

/-- `x[i] <- v`: the index is checked first (00_scope.md R13). -/
def writeReg (s : State) (reg : RegIdx) (v : Word) : Except Failure State :=
  match s.chkReg reg with
  | .error c => .error c
  | .ok _ => .ok (s.setReg reg v)

/-! ### Data and program memory (00_scope.md R13, 20_memory.md R56, R57) -/

/-- Whether `n` bytes at `a` lie in `MEM`: `a + n <= MEM_SIZE` on natural numbers (20_memory.md R56). UNVERIFIED: decision D7,
notes/assumptions/7.md. -/
def inMem (s : State) (a n : Nat) : Bool := a + n ≤ s.memSize.toNat

/-- Whether `n` bytes at `a` lie in `EXE`: `a + n <= EXE_LEN` on natural numbers (20_memory.md R56). -/
def inExe (s : State) (a n : Nat) : Bool := a + n ≤ s.exe.length

/-- `MemRead(addr, n)`, zero-extended to a word (00_scope.md R13). -/
def memRead (s : State) (addr : Word) (n : Nat) : Except Failure Word :=
  if s.inMem addr.toNat n then .ok (BitVec.ofNat 32 (composeData (s.mem.readBytes addr.toNat n)))
  else .error (.memoryOutOfBounds addr)

/-- `MemWrite(addr, n, v)`: the low `n` bytes of `v` (00_scope.md R13). -/
def memWrite (s : State) (addr : Word) (n : Nat) (v : Word) : Except Failure State :=
  if s.inMem addr.toNat n then .ok (s.setMem (s.mem.writeBytes addr.toNat (splitData n v.toNat)))
  else .error (.memoryOutOfBounds addr)

/-- `ExeRead(addr, n)`: bytes, not a number (00_scope.md R13). -/
def exeRead (s : State) (addr : Word) (n : Nat) : Except Failure (List Byte) :=
  if s.inExe addr.toNat n then .ok ((s.exe.drop addr.toNat).take n)
  else .error (.programOutOfBounds addr)

/-! ### The stack (45_stack.md R240, R241) -/

/-- `push(v)` (45_stack.md R240). The subtraction is made only when `sp >= WB`. UNVERIFIED: the second check is decision D15,
notes/assumptions/18.md. -/
def push (s : State) (v : Word) : Except Failure State :=
  if s.sp.toNat < Config.wordBytes then .error .stackOverflow
  else
    match s.memWrite (s.sp - BitVec.ofNat 32 Config.wordBytes) Config.wordBytes v with
    | .error c => .error c
    | .ok t => .ok (t.setSp (s.sp - BitVec.ofNat 32 Config.wordBytes))

/-- `pop()`: the word and the state after it (45_stack.md R241). The sum `sp + WB` of the check is a natural number. UNVERIFIED:
decision D15, notes/assumptions/18.md. -/
def pop (s : State) : Except Failure (Word × State) :=
  if s.inMem s.sp.toNat Config.wordBytes then
    .ok (BitVec.ofNat 32 (composeData (s.mem.readBytes s.sp.toNat Config.wordBytes)),
      s.setSp (s.sp + BitVec.ofNat 32 Config.wordBytes))
  else .error .stackUnderflow

end State

/-! ### The numeric cause codes (60_exceptions.md R282) -/

/-- The code a status port would show for a cause (60_exceptions.md R282). No step reads it. UNVERIFIED: decision D22,
notes/assumptions/26.md. -/
def Failure.code : Failure → Nat
  | .programOutOfBounds _ => 1
  | .decodeTruncated _ => 2
  | .decodeUnknownOpcode _ _ => 3
  | .memoryOutOfBounds _ => 4
  | .stackOverflow => 5
  | .stackUnderflow => 6
  | .divisionByZero => 7
  | .unknownSyscall _ => 8
  | .registerOutOfRange _ => 9
  | .stringUnterminated _ => 10
  | .stringInvalidUtf8 _ => 11

end Sys2Proof.Machine
end

