-- ==== Sys2Proof/Machine/Flags.lean ====
section
/-! DEFINITION. The flag computations and the jump conditions (10_state.md R26, R27; 43_arithmetic_compare.md R197 to R200,
R205; 44_conditional_jumps.md), and the increment and decrement that write the zero flag. -/

namespace Sys2Proof.Machine

/-- `zf <- (t = 0)`: "whether the result is exactly zero" (10_state.md R26). For a decrement of 0 this gives `false`:
90_conflicts.md C2, notes/assumptions/25.md. -/
def zeroFlagOf (t : Word) : Bool := t == 0

/-- `(v + 1) mod 2^W` (43_arithmetic_compare.md R197). -/
def incremented (v : Word) : Word := v + 1

/-- `(v - 1) mod 2^W` (43_arithmetic_compare.md R198). -/
def decremented (v : Word) : Word := v - 1

/-- The three-way compare of unsigned words, `a` against `b`: `Less` iff `a < b` (43_arithmetic_compare.md R205). UNVERIFIED: the
direction is decision D19, notes/assumptions/22.md. -/
def compareWords (a b : Word) : Comparison :=
  if a.toNat < b.toNat then .less else if a = b then .equal else .greater

/-- The condition of `JumpEqual` (44_conditional_jumps.md R221). -/
def condEqual (c : Comparison) : Bool := c == .equal

/-- The condition of `JumpNotEqual` (44_conditional_jumps.md R222). -/
def condNotEqual (c : Comparison) : Bool := c != .equal

/-- The condition of `JumpGreater` (44_conditional_jumps.md R223). -/
def condGreater (c : Comparison) : Bool := c == .greater

/-- The condition of `JumpLess` (44_conditional_jumps.md R224). -/
def condLess (c : Comparison) : Bool := c == .less

/-- The condition of `JumpGreaterEqual` (44_conditional_jumps.md R225). -/
def condGreaterEqual (c : Comparison) : Bool := c != .less

/-- The condition of `JumpLessEqual` (44_conditional_jumps.md R226). -/
def condLessEqual (c : Comparison) : Bool := c != .greater

end Sys2Proof.Machine
end

