-- ==== Sys2Proof/Machine/Operands.lean ====
section
/-! DEFINITION. The operand forms: the two addressing modes (41_data_movement.md, introduction) and the shared shapes of the
instructions that use them. -/

namespace Sys2Proof.Machine

/-- The two addressing modes of 41_data_movement.md: the word operand itself, or the content of the side register the operand
names. There are no others. -/
inductive AddrMode
  | absolute (addr : Word)
  | indirect (reg : RegIdx)
deriving DecidableEq, Repr

/-- The effective address of an addressing mode; the register index is checked, the register is not changed. -/
def AddrMode.effAddr (mode : AddrMode) (s : State) : Except Failure Word :=
  match mode with
  | .absolute addr => .ok addr
  | .indirect reg => s.readReg reg

namespace State

/-- The shape of `Load8/16/32` and `Deref8/16/32`: `acc <- zext_W(MemRead(a, n))` (41_data_movement.md R150 to R152, R158 to
R160). UNVERIFIED: the zero extension of the `Deref` forms is decision D18, notes/assumptions/21.md. -/
def loadAcc (s : State) (mode : AddrMode) (n : Nat) : Host.Outcome State Fault Refusal :=
  s.orRaise (mode.effAddr s) fun a =>
  s.orRaise (s.memRead a n) fun v =>
  .next (s.setAcc v)

/-- The shape of `Store8/16/32` and `Write8/16/32`: `MemWrite(a, n, acc[8n-1:0])` (41_data_movement.md R153 to R155, R162 to
R164). -/
def storeAcc (s : State) (mode : AddrMode) (n : Nat) : Host.Outcome State Fault Refusal :=
  s.orRaise (mode.effAddr s) fun a =>
  s.orRaise (s.memWrite a n s.acc) fun t =>
  .next t

/-- The shape of `Add`, `Sub` and `Mul`: `acc <- f(acc, x[reg])` (43_arithmetic_compare.md R201 to R203). -/
def accOp (s : State) (reg : RegIdx) (f : Word → Word → Word) : Host.Outcome State Fault Refusal :=
  s.orRaise (s.readReg reg) fun v =>
  .next (s.setAcc (f s.acc v))

/-- The shape of every jump: `if cond then pc <- addr` (44_conditional_jumps.md R220; `Jump` has no condition). The target is not
checked. UNVERIFIED: decision D25, notes/assumptions/27.md. -/
def jumpIf (s : State) (cond : Bool) (addr : Word) : Host.Outcome State Fault Refusal :=
  .next (if cond then s.setPc addr else s)

end State

end Sys2Proof.Machine
end

