-- ==== Sys2Proof/Machine/Arithmetic.lean ====
section
/-! DEFINITION. Arithmetic and compare (43_arithmetic_compare.md R197 to R205). Each meaning is the execute phase. -/

namespace Sys2Proof.Machine

/-- `Increment`: `acc <- (acc + 1) mod 2^W; zf <- (acc = 0)` (43_arithmetic_compare.md R197). -/
def execIncrement (s : State) : Host.Outcome State Fault Refusal :=
  .next ((s.setAcc (incremented s.acc)).setZf (zeroFlagOf (incremented s.acc)))

/-- `Decrement`: `acc <- (acc - 1) mod 2^W; zf <- (acc = 0)` (43_arithmetic_compare.md R198). -/
def execDecrement (s : State) : Host.Outcome State Fault Refusal :=
  .next ((s.setAcc (decremented s.acc)).setZf (zeroFlagOf (decremented s.acc)))

/-- `IncrementRegister reg`: as `Increment`, on `x[reg]` (43_arithmetic_compare.md R199). -/
def execIncrementRegister (reg : RegIdx) (s : State) : Host.Outcome State Fault Refusal :=
  s.orRaise (s.readReg reg) fun v =>
  s.orRaise (s.writeReg reg (incremented v)) fun t =>
  .next (t.setZf (zeroFlagOf (incremented v)))

/-- `DecrementRegister reg`: as `Decrement`, on `x[reg]` (43_arithmetic_compare.md R200). -/
def execDecrementRegister (reg : RegIdx) (s : State) : Host.Outcome State Fault Refusal :=
  s.orRaise (s.readReg reg) fun v =>
  s.orRaise (s.writeReg reg (decremented v)) fun t =>
  .next (t.setZf (zeroFlagOf (decremented v)))

/-- `Add reg`: `acc <- (acc + x[reg]) mod 2^W` (43_arithmetic_compare.md R201). -/
def execAdd (reg : RegIdx) (s : State) : Host.Outcome State Fault Refusal :=
  s.accOp reg (· + ·)

/-- `Sub reg`: `acc <- (acc - x[reg]) mod 2^W` (43_arithmetic_compare.md R202). -/
def execSub (reg : RegIdx) (s : State) : Host.Outcome State Fault Refusal :=
  s.accOp reg (· - ·)

/-- `Mul reg`: `acc <- (acc * x[reg]) mod 2^W` (43_arithmetic_compare.md R203). -/
def execMul (reg : RegIdx) (s : State) : Host.Outcome State Fault Refusal :=
  s.accOp reg (· * ·)

/-- The quotient and the remainder of unsigned words, or `DivisionByZero` (43_arithmetic_compare.md R195, R204). UNVERIFIED: decision
D30, notes/assumptions/31.md. -/
def divideWords (a d : Word) : Except Failure (Word × Word) :=
  if d = 0 then .error .divisionByZero else .ok (a / d, a % d)

/-- `Div reg`: `acc <- acc div x[reg]`, `x[reg] <- acc mod x[reg]`, both from the old values (43_arithmetic_compare.md R204). -/
def execDiv (reg : RegIdx) (s : State) : Host.Outcome State Fault Refusal :=
  s.orRaise (s.readReg reg) fun v =>
  s.orRaise (divideWords s.acc v) fun p =>
  s.orRaise (s.writeReg reg p.2) fun t =>
  .next (t.setAcc p.1)

/-- `Compare reg`: `cf` is the relation of `acc` to `x[reg]` (43_arithmetic_compare.md R205). -/
def execCompare (reg : RegIdx) (s : State) : Host.Outcome State Fault Refusal :=
  s.orRaise (s.readReg reg) fun v =>
  .next (s.setCf (compareWords s.acc v))


end Sys2Proof.Machine
end

