-- ==== Sys2Proof/Machine/Basic.lean ====
section
/-! DEFINITION. `Nop`, `Halt` and `Data` (40_step_cycle.md R140 to R142). Each meaning is the execute phase: `pc` has been advanced. -/

namespace Sys2Proof.Machine

/-- `Nop`: no effect (40_step_cycle.md R140). -/
def execNop (s : State) : Host.Outcome State Fault Refusal :=
  .next s

/-- `Halt`: `status <- Halted` (40_step_cycle.md R141). -/
def execHalt (s : State) : Host.Outcome State Fault Refusal :=
  .next (s.setStatus .halted)

/-- `Data L, payload`: skipped over, no effect (40_step_cycle.md R142). -/
def execData (_length : Word) (_payload : List Byte) (s : State) : Host.Outcome State Fault Refusal :=
  .next s


end Sys2Proof.Machine
end

