-- ==== Sys2Proof/Machine/CondJumps.lean ====
section
/-! DEFINITION. Conditional jumps (44_conditional_jumps.md R220 to R228). Each meaning is the execute phase. -/

namespace Sys2Proof.Machine

/-- `JumpEqual addr` (44_conditional_jumps.md R221). -/
def execJumpEqual (addr : Word) (s : State) : Host.Outcome State Fault Refusal :=
  s.jumpIf (condEqual s.cf) addr

/-- `JumpNotEqual addr` (44_conditional_jumps.md R222). -/
def execJumpNotEqual (addr : Word) (s : State) : Host.Outcome State Fault Refusal :=
  s.jumpIf (condNotEqual s.cf) addr

/-- `JumpGreater addr` (44_conditional_jumps.md R223). -/
def execJumpGreater (addr : Word) (s : State) : Host.Outcome State Fault Refusal :=
  s.jumpIf (condGreater s.cf) addr

/-- `JumpLess addr` (44_conditional_jumps.md R224). -/
def execJumpLess (addr : Word) (s : State) : Host.Outcome State Fault Refusal :=
  s.jumpIf (condLess s.cf) addr

/-- `JumpGreaterEqual addr` (44_conditional_jumps.md R225). -/
def execJumpGreaterEqual (addr : Word) (s : State) : Host.Outcome State Fault Refusal :=
  s.jumpIf (condGreaterEqual s.cf) addr

/-- `JumpLessEqual addr` (44_conditional_jumps.md R226). -/
def execJumpLessEqual (addr : Word) (s : State) : Host.Outcome State Fault Refusal :=
  s.jumpIf (condLessEqual s.cf) addr

/-- `JumpZero addr`: `if zf then pc <- addr` (44_conditional_jumps.md R227). -/
def execJumpZero (addr : Word) (s : State) : Host.Outcome State Fault Refusal :=
  s.jumpIf s.zf addr

/-- `JumpNonzero addr`: `if not zf then pc <- addr` (44_conditional_jumps.md R228). -/
def execJumpNonzero (addr : Word) (s : State) : Host.Outcome State Fault Refusal :=
  s.jumpIf (!s.zf) addr


end Sys2Proof.Machine
end

