-- ==== Sys2Proof/Machine/Text.lean ====
section
/-! DEFINITION. The text contract of the print syscalls: NUL-terminated strings, UTF-8, decimal numbers and the line
terminator (46_copy_syscall.md R261 to R264). -/

namespace Sys2Proof

/-- `NEWLINE`, the bytes syscall 0 appends: the one byte `0x0A` (46_copy_syscall.md R264). UNVERIFIED: decision D20,
notes/assumptions/23.md. -/
def Config.newline : List Byte := [0x0A#8]

namespace Machine

/-- The table of well-formed UTF-8 sequences, one row a sequence, one byte range (lowest, highest) a byte (46_copy_syscall.md
R262). UNVERIFIED: the spec takes it from general knowledge, notes/assumptions/30.md. -/
def utf8Table : List (List (Nat × Nat)) :=
  [[(0x00, 0x7F)],
   [(0xC2, 0xDF), (0x80, 0xBF)],
   [(0xE0, 0xE0), (0xA0, 0xBF), (0x80, 0xBF)],
   [(0xE1, 0xEC), (0x80, 0xBF), (0x80, 0xBF)],
   [(0xED, 0xED), (0x80, 0x9F), (0x80, 0xBF)],
   [(0xEE, 0xEF), (0x80, 0xBF), (0x80, 0xBF)],
   [(0xF0, 0xF0), (0x90, 0xBF), (0x80, 0xBF), (0x80, 0xBF)],
   [(0xF1, 0xF3), (0x80, 0xBF), (0x80, 0xBF), (0x80, 0xBF)],
   [(0xF4, 0xF4), (0x80, 0x8F), (0x80, 0xBF), (0x80, 0xBF)]]

/-- The bytes left after one sequence of this row, if the bytes begin with one. -/
def utf8Strip : List (Nat × Nat) → List Byte → Option (List Byte)
  | [], bs => some bs
  | _ :: _, [] => none
  | (lo, hi) :: row, b :: bs => if lo ≤ b.toNat ∧ b.toNat ≤ hi then utf8Strip row bs else none

/-- The bytes left after one well-formed sequence, if the bytes begin with one. No two rows of the table match the same bytes. -/
def utf8Next (bs : List Byte) : Option (List Byte) :=
  utf8Table.findSome? fun row => utf8Strip row bs

/-- `utf8ValidFrom n s`: `s` is a concatenation of at most `n` well-formed sequences. -/
def utf8ValidFrom : Nat → List Byte → Bool
  | _, [] => true
  | 0, _ :: _ => false
  | n + 1, b :: bs =>
    match utf8Next (b :: bs) with
    | none => false
    | some rest => utf8ValidFrom n rest

/-- `utf8_valid(s)`: `s` is a concatenation of well-formed UTF-8 sequences (46_copy_syscall.md R262); there are at most as many as
bytes. -/
def utf8Valid (s : List Byte) : Bool :=
  utf8ValidFrom s.length s

/-- The ASCII digit of a number below 10. -/
def digitByte (d : Nat) : Byte := BitVec.ofNat 8 (0x30 + d)

/-- The decimal digits of `v`, most significant first, before the digits already spelled; at most `n` of them. -/
def decimalFrom : Nat → Nat → List Byte → List Byte
  | 0, _, acc => acc
  | n + 1, v, acc =>
    if v < 10 then digitByte v :: acc else decimalFrom n (v / 10) (digitByte (v % 10) :: acc)

/-- `decimal(v)`: the shortest ASCII spelling of the unsigned value in base ten (46_copy_syscall.md R263); a 32-bit word has at
most 10 digits. UNVERIFIED: decision D20, notes/assumptions/23.md. -/
def decimal (v : Word) : List Byte :=
  decimalFrom 10 v.toNat []

/-- The bytes from address `a` up to the first zero byte, the terminator excluded, if there is one among the next `n` bytes. -/
def Memory.untilNul (m : Memory) : Nat → Nat → Option (List Byte)
  | 0, _ => none
  | n + 1, a => if m.read a = 0 then some [] else (m.untilNul n (a + 1)).map (m.read a :: ·)

/-- `cstr(a)`: the NUL-terminated string at `a`, with its three checks in the spec's order; the scan never leaves `MEM`
(46_copy_syscall.md R261). UNVERIFIED: the conditions and their order are decision D20, notes/assumptions/23.md. -/
def State.cstr (s : State) (a : Word) : Except Failure (List Byte) :=
  if s.memSize.toNat ≤ a.toNat then .error (.memoryOutOfBounds a)
  else
    match s.mem.untilNul (s.memSize.toNat - a.toNat) a.toNat with
    | none => .error (.stringUnterminated a)
    | some bytes => if utf8Valid bytes then .ok bytes else .error (.stringInvalidUtf8 a)

end Machine

end Sys2Proof
end

