-- ==== Sys2Proof/Machine/CopySyscall.lean ====
section
/-! DEFINITION. `CopyCodeMemory` and `Syscall` (46_copy_syscall.md R255, R260). Each meaning is the execute phase. -/

namespace Sys2Proof.Machine

/-- `CopyCodeMemory source, size`: `MEM[acc + k] <- EXE[source + k]` for `k < size`; the source range is judged first, both before any
byte is written (46_copy_syscall.md R255). UNVERIFIED: decisions D13 and D26, notes/assumptions/28.md. -/
def execCopyCodeMemory (source : Word) (size : Word) (s : State) : Host.Outcome State Fault Refusal :=
  s.orRaise (s.exeRead source size.toNat) fun bytes =>
  if s.inMem s.acc.toNat size.toNat then .next (s.setMem (s.mem.writeBytes s.acc.toNat bytes))
  else .next (s.raise (.memoryOutOfBounds s.acc))

/-- `Syscall index`: the fixed table of text-output services (46_copy_syscall.md R260). No register is written. UNVERIFIED: decision D21,
notes/assumptions/24.md. -/
def execSyscall (index : Word) (s : State) : Host.Outcome State Fault Refusal :=
  if index.toNat = 0 then
    s.orRaise (s.cstr s.acc) fun bytes =>
    .next (s.emit (bytes ++ Config.newline))
  else if index.toNat = 1 then .next (s.emit (decimal s.acc))
  else if index.toNat = 2 then
    s.orRaise (s.cstr s.acc) fun bytes =>
    .next (s.emit bytes)
  else .next (s.raise (.unknownSyscall index))


end Sys2Proof.Machine
end

