-- ==== Sys2Proof/Machine/DataMovement.lean ====
section
/-! DEFINITION. Loads, stores and register moves (41_data_movement.md R150 to R164). Each meaning is the execute phase. -/

namespace Sys2Proof.Machine

/-- `Load8 addr`: `acc <- zext_W(MemRead(addr, 1))` (41_data_movement.md R150). -/
def execLoad8 (addr : Word) (s : State) : Host.Outcome State Fault Refusal :=
  s.loadAcc (.absolute addr) 1

/-- `Load16 addr`: `acc <- zext_W(MemRead(addr, 2))` (41_data_movement.md R151). -/
def execLoad16 (addr : Word) (s : State) : Host.Outcome State Fault Refusal :=
  s.loadAcc (.absolute addr) 2

/-- `Load32 addr`: `acc <- zext_W(MemRead(addr, 4))` (41_data_movement.md R152). -/
def execLoad32 (addr : Word) (s : State) : Host.Outcome State Fault Refusal :=
  s.loadAcc (.absolute addr) 4

/-- `Store8 addr`: `MemWrite(addr, 1, acc[7:0])` (41_data_movement.md R153). -/
def execStore8 (addr : Word) (s : State) : Host.Outcome State Fault Refusal :=
  s.storeAcc (.absolute addr) 1

/-- `Store16 addr`: `MemWrite(addr, 2, acc[15:0])` (41_data_movement.md R154). -/
def execStore16 (addr : Word) (s : State) : Host.Outcome State Fault Refusal :=
  s.storeAcc (.absolute addr) 2

/-- `Store32 addr`: `MemWrite(addr, 4, acc[31:0])` (41_data_movement.md R155). -/
def execStore32 (addr : Word) (s : State) : Host.Outcome State Fault Refusal :=
  s.storeAcc (.absolute addr) 4

/-- `Set value`: `acc <- value` (41_data_movement.md R156). -/
def execSet (value : Word) (s : State) : Host.Outcome State Fault Refusal :=
  .next (s.setAcc value)

/-- `SetRegister reg, value`: `x[reg] <- value` (41_data_movement.md R157). UNVERIFIED: decision D17, notes/assumptions/20.md. -/
def execSetRegister (reg : RegIdx) (value : Word) (s : State) : Host.Outcome State Fault Refusal :=
  s.orRaise (s.writeReg reg value) fun t =>
  .next t

/-- `Deref8 reg`: `acc <- zext_W(MemRead(x[reg], 1))` (41_data_movement.md R158). -/
def execDeref8 (reg : RegIdx) (s : State) : Host.Outcome State Fault Refusal :=
  s.loadAcc (.indirect reg) 1

/-- `Deref16 reg`: `acc <- zext_W(MemRead(x[reg], 2))` (41_data_movement.md R159). -/
def execDeref16 (reg : RegIdx) (s : State) : Host.Outcome State Fault Refusal :=
  s.loadAcc (.indirect reg) 2

/-- `Deref32 reg`: `acc <- zext_W(MemRead(x[reg], 4))` (41_data_movement.md R160). -/
def execDeref32 (reg : RegIdx) (s : State) : Host.Outcome State Fault Refusal :=
  s.loadAcc (.indirect reg) 4

/-- `Swap reg`: exchange `acc` and `x[reg]`, both reads before both writes (41_data_movement.md R161). -/
def execSwap (reg : RegIdx) (s : State) : Host.Outcome State Fault Refusal :=
  s.orRaise (s.readReg reg) fun v =>
  s.orRaise (s.writeReg reg s.acc) fun t =>
  .next (t.setAcc v)

/-- `Write8 reg`: `MemWrite(x[reg], 1, acc[7:0])` (41_data_movement.md R162). -/
def execWrite8 (reg : RegIdx) (s : State) : Host.Outcome State Fault Refusal :=
  s.storeAcc (.indirect reg) 1

/-- `Write16 reg`: `MemWrite(x[reg], 2, acc[15:0])` (41_data_movement.md R163). -/
def execWrite16 (reg : RegIdx) (s : State) : Host.Outcome State Fault Refusal :=
  s.storeAcc (.indirect reg) 2

/-- `Write32 reg`: `MemWrite(x[reg], 4, acc[31:0])` (41_data_movement.md R164). -/
def execWrite32 (reg : RegIdx) (s : State) : Host.Outcome State Fault Refusal :=
  s.storeAcc (.indirect reg) 4


end Sys2Proof.Machine
end

