-- ==== Sys2Proof/Machine/Stack.lean ====
section
/-! DEFINITION. Stack instructions (45_stack.md R242 to R245). Each meaning is the execute phase. -/

namespace Sys2Proof.Machine

/-- `Push`: `push(acc)` (45_stack.md R242). -/
def execPush (s : State) : Host.Outcome State Fault Refusal :=
  s.orRaise (s.push s.acc) fun t =>
  .next t

/-- `Pop`: `acc <- pop()` (45_stack.md R243). -/
def execPop (s : State) : Host.Outcome State Fault Refusal :=
  s.orRaise s.pop fun p =>
  .next (p.2.setAcc p.1)

/-- `PushRegister reg`: `push(x[reg])` (45_stack.md R244). -/
def execPushRegister (reg : RegIdx) (s : State) : Host.Outcome State Fault Refusal :=
  s.orRaise (s.readReg reg) fun v =>
  s.orRaise (s.push v) fun t =>
  .next t

/-- `PopRegister reg`: `x[reg] <- pop()`, the index checked before the stack (45_stack.md R245). -/
def execPopRegister (reg : RegIdx) (s : State) : Host.Outcome State Fault Refusal :=
  s.orRaise (s.chkReg reg) fun _ =>
  s.orRaise s.pop fun p =>
  .next (p.2.setReg reg p.1)


end Sys2Proof.Machine
end

