-- ==== Sys2Proof/Machine/Transfer.lean ====
section
/-! DEFINITION. Stack-pointer moves and unconditional control transfer (42_stack_pointer_and_jumps.md R180 to R184). Each meaning is the
execute phase. -/

namespace Sys2Proof.Machine

/-- `ReadStackPointer`: `acc <- sp` (42_stack_pointer_and_jumps.md R180). -/
def execReadStackPointer (s : State) : Host.Outcome State Fault Refusal :=
  .next (s.setAcc s.sp)

/-- `WriteStackPointer`: `sp <- acc`, unchecked (42_stack_pointer_and_jumps.md R181). UNVERIFIED: decision D16, notes/assumptions/19.md. -/
def execWriteStackPointer (s : State) : Host.Outcome State Fault Refusal :=
  .next (s.setSp s.acc)

/-- `Jump addr`: `pc <- addr`, absolute (42_stack_pointer_and_jumps.md R182). -/
def execJump (addr : Word) (s : State) : Host.Outcome State Fault Refusal :=
  s.jumpIf true addr

/-- `Call addr`: `push(pc)`, the advanced `pc`, then `pc <- addr` (42_stack_pointer_and_jumps.md R183). -/
def execCall (addr : Word) (s : State) : Host.Outcome State Fault Refusal :=
  s.orRaise (s.push s.pc) fun t =>
  .next (t.setPc addr)

/-- `Return`: `pc <- pop()` (42_stack_pointer_and_jumps.md R184). -/
def execReturn (s : State) : Host.Outcome State Fault Refusal :=
  s.orRaise s.pop fun p =>
  .next (p.2.setPc p.1)


end Sys2Proof.Machine
end

