-- ==== Sys2Proof/Machine/Dispatch.lean ====
section
/-! DEFINITION. The execute phase: "dispatch is a single exhaustive match" (40_step_cycle.md R134). `s` is the state after the
advance of R133. -/

namespace Sys2Proof.Machine

def exec (i : Instr) (s : State) : Host.Outcome State Fault Refusal :=
  match i with
  | .nop => Sys2Proof.Machine.execNop s
  | .halt => Sys2Proof.Machine.execHalt s
  | .load8 addr => Sys2Proof.Machine.execLoad8 addr s
  | .load16 addr => Sys2Proof.Machine.execLoad16 addr s
  | .load32 addr => Sys2Proof.Machine.execLoad32 addr s
  | .store8 addr => Sys2Proof.Machine.execStore8 addr s
  | .store16 addr => Sys2Proof.Machine.execStore16 addr s
  | .store32 addr => Sys2Proof.Machine.execStore32 addr s
  | .set value => Sys2Proof.Machine.execSet value s
  | .setRegister reg value => Sys2Proof.Machine.execSetRegister reg value s
  | .deref8 reg => Sys2Proof.Machine.execDeref8 reg s
  | .deref16 reg => Sys2Proof.Machine.execDeref16 reg s
  | .deref32 reg => Sys2Proof.Machine.execDeref32 reg s
  | .swap reg => Sys2Proof.Machine.execSwap reg s
  | .write8 reg => Sys2Proof.Machine.execWrite8 reg s
  | .write16 reg => Sys2Proof.Machine.execWrite16 reg s
  | .write32 reg => Sys2Proof.Machine.execWrite32 reg s
  | .readStackPointer => Sys2Proof.Machine.execReadStackPointer s
  | .writeStackPointer => Sys2Proof.Machine.execWriteStackPointer s
  | .jump addr => Sys2Proof.Machine.execJump addr s
  | .call addr => Sys2Proof.Machine.execCall addr s
  | .ret => Sys2Proof.Machine.execReturn s
  | .increment => Sys2Proof.Machine.execIncrement s
  | .decrement => Sys2Proof.Machine.execDecrement s
  | .incrementRegister reg => Sys2Proof.Machine.execIncrementRegister reg s
  | .decrementRegister reg => Sys2Proof.Machine.execDecrementRegister reg s
  | .add reg => Sys2Proof.Machine.execAdd reg s
  | .sub reg => Sys2Proof.Machine.execSub reg s
  | .mul reg => Sys2Proof.Machine.execMul reg s
  | .div reg => Sys2Proof.Machine.execDiv reg s
  | .compare reg => Sys2Proof.Machine.execCompare reg s
  | .jumpEqual addr => Sys2Proof.Machine.execJumpEqual addr s
  | .jumpNotEqual addr => Sys2Proof.Machine.execJumpNotEqual addr s
  | .jumpGreater addr => Sys2Proof.Machine.execJumpGreater addr s
  | .jumpLess addr => Sys2Proof.Machine.execJumpLess addr s
  | .jumpGreaterEqual addr => Sys2Proof.Machine.execJumpGreaterEqual addr s
  | .jumpLessEqual addr => Sys2Proof.Machine.execJumpLessEqual addr s
  | .jumpZero addr => Sys2Proof.Machine.execJumpZero addr s
  | .jumpNonzero addr => Sys2Proof.Machine.execJumpNonzero addr s
  | .push => Sys2Proof.Machine.execPush s
  | .pop => Sys2Proof.Machine.execPop s
  | .pushRegister reg => Sys2Proof.Machine.execPushRegister reg s
  | .popRegister reg => Sys2Proof.Machine.execPopRegister reg s
  | .copyCodeMemory source size => Sys2Proof.Machine.execCopyCodeMemory source size s
  | .syscall index => Sys2Proof.Machine.execSyscall index s
  | .data length payload => Sys2Proof.Machine.execData length payload s

end Sys2Proof.Machine
end

