-- ==== Sys2Proof/Machine/Fetch.lean ====
section
/-! DEFINITION. The phases of a step before the execute phase: fetch, decode and advance (40_step_cycle.md R131 to R133), and the
placing of an instruction where fetch reads its next one. Step.lean calls them. -/

namespace Sys2Proof.Machine.State

/-- Fetch: `EXE[pc .. EXE_LEN-1]`, or the failure of a `pc` outside `EXE` (40_step_cycle.md R131). UNVERIFIED: that `EXE_LEN` itself is
outside is decision D12, notes/assumptions/14.md. -/
def fetch (s : State) : Except Failure (List Byte) :=
  if s.exe.length ≤ s.pc.toNat then .error (.programOutOfBounds s.pc) else .ok (s.exe.drop s.pc.toNat)

/-- Fetch, then decode under the Machine's opcode map (40_step_cycle.md R132, 30_encoding.md R100). -/
def fetchDecode (s : State) : Except Failure Instr :=
  match s.fetch with
  | .error c => .error c
  | .ok buf =>
    match decodeWith s.opc.byte buf with
    | .truncated => .error (.decodeTruncated s.pc)
    | .unknownOpcode op => .error (.decodeUnknownOpcode s.pc op)
    | .instr i => .ok i

/-- Advance: `pc <- pc + size(i)` (40_step_cycle.md R133), before the effect of `i`. -/
def advance (s : State) (i : Instr) : State :=
  s.setPc (s.pc + BitVec.ofNat 32 i.size)

/-- `EXE` with these bytes at `pc`, in place of what stood there; zeros before them where `EXE` is shorter than `pc`. -/
def exeWithAtPc (s : State) (bytes : List Byte) : List Byte :=
  s.exe.take s.pc.toNat ++ List.replicate (s.pc.toNat - s.exe.length) 0 ++ bytes ++
    s.exe.drop (s.pc.toNat + bytes.length)

/-- The state with these bytes of program memory at `pc` and running, so that the next step decodes them. It stands for the
construction of the Machine from such an `EXE`: no step and no host action writes program memory (20_memory.md R52;
notes/assumptions/12.md, 35.md). -/
def placeAtPc (s : State) (bytes : List Byte) : State :=
  { s with exe := s.exeWithAtPc bytes, status := .running }

end Sys2Proof.Machine.State
end

