-- ==== Sys2Proof/Machine/Step.lean ====
section
/-! DEFINITION. One step of the fetch-decode-execute engine (40_step_cycle.md R130 to R134). -/

namespace Sys2Proof.Machine

/-- One step (40_step_cycle.md R130): fetch, decode, advance, execute. It is defined only from `Running`; a terminal Machine has
no step (R136). A failure of fetch or decode leaves `pc` at the instruction's address (R131, R132). -/
def step (s : State) : Host.Outcome State Fault Refusal :=
  match s.status with
  | .halted => .fault .steppedHalted
  | .failed _ => .fault .steppedFailed
  | .running =>
    match s.fetchDecode with
    | .error c => .next (s.raise c)
    | .ok i => exec i (s.advance i)

/-- The state whose next step fetches the instruction whose first `nbits` bits are `w`, numbered as spec/opcode_table.json numbers
them, later bits 0. Those are bytes of the default opcode map, so the Machine gets that map too (notes/assumptions/12.md, 35.md). -/
def State.withFetchWord (s : State) (nbits w : Nat) : State :=
  { s.placeAtPc (tableInstrBytes nbits w) with opc := OpcodeMap.standard }

end Sys2Proof.Machine
end

