-- ==== Sys2Proof/Machine/Builder.lean ====
section
/-! DEFINITION. The Program Builder: the software that makes the Executable out of instructions, as far as 30_encoding.md R112, R122
to R127 describe it (00_scope.md R5). No step uses it. The text form is in Assembler.lean. -/

namespace Sys2Proof.Builder

/-- The errors of the Builder (60_exceptions.md R298). -/
inductive Error
  /-- An instruction, data or jump index that names no instruction, or no `Data` where a `Data` is needed. -/
  | invalidIndex
  /-- "Patching a non-placeholder, or a value that was never a placeholder, is an error" (30_encoding.md R127). -/
  | notPlaceholder
  /-- An address that is not a word: the Executable would be longer than `MAXW` (00_scope.md R8). -/
  | tooLong
  /-- A `Data` whose stored length is not its payload's (30_encoding.md R111). -/
  | wrongDataLength
deriving DecidableEq, Repr

/-- The address of instruction `k`: "the sum of encoded sizes" of the instructions before it (30_encoding.md R112). -/
def address (prog : List Instr) (k : Nat) : Nat :=
  ((prog.take k).map Instr.size).sum

/-- A compiled Program under the opcode map `opc`: the concatenation of `encode` over its instructions in order (30_encoding.md R112);
none if one of them has no encoding. -/
def compileWith (opc : Mnemonic → Byte) : List Instr → Option (List Byte)
  | [] => some []
  | i :: is =>
    match encodeWith opc i with
    | none => none
    | some bytes => (compileWith opc is).map (bytes ++ ·)

/-- The sentinel a placeholder's address operand holds: "the maximum representable address word" (30_encoding.md R123). -/
def sentinel : Word := Config.maxWord

/-- `resolve(k)`: the byte address of instruction `k` of the Program (30_encoding.md R123). -/
def resolve (prog : List Instr) (k : Nat) : Except Error Word :=
  if prog.length ≤ k then .error .invalidIndex
  else if Config.maxWord.toNat < address prog k then .error .tooLong
  else .ok (BitVec.ofNat 32 (address prog k))

/-- `dataString`: a `Data` holding the bytes of the text plus one trailing NUL (30_encoding.md R124). -/
def dataString (text : List Byte) : Instr :=
  .data (BitVec.ofNat 32 (text.length + 1)) (text ++ [0])

/-- The instruction with its address operand replaced, if it is of a kind whose operand may be a label: `Jump`, `Call` and the eight
conditional jumps (30_encoding.md R123). -/
def withTarget (m : Mnemonic) (addr : Word) : Option Instr :=
  match m with
  | .jump => some (.jump addr)
  | .call => some (.call addr)
  | .jumpEqual => some (.jumpEqual addr)
  | .jumpNotEqual => some (.jumpNotEqual addr)
  | .jumpGreater => some (.jumpGreater addr)
  | .jumpLess => some (.jumpLess addr)
  | .jumpGreaterEqual => some (.jumpGreaterEqual addr)
  | .jumpLessEqual => some (.jumpLessEqual addr)
  | .jumpZero => some (.jumpZero addr)
  | .jumpNonzero => some (.jumpNonzero addr)
  | .nop | .halt | .load8 | .load16 | .load32 | .store8 | .store16 | .store32 | .set | .setRegister | .deref8 | .deref16
  | .deref32 | .swap | .write8 | .write16 | .write32 | .readStackPointer | .writeStackPointer | .ret | .increment
  | .decrement | .incrementRegister | .decrementRegister | .add | .sub | .mul | .div | .compare | .push | .pop
  | .pushRegister | .popRegister | .copyCodeMemory | .syscall | .data => none

/-- Patch the jump placeholder at index `at` with the address of instruction `target`; an instruction that is not a jump to the
sentinel is no placeholder (30_encoding.md R123, R127). So a placeholder that has been resolved is not patched again (DESIGN
CHOICE: notes/assumptions/34.md). -/
def patchJump (prog : List Instr) (idx target : Nat) : Except Error (List Instr) :=
  match prog[idx]? with
  | none => .error .invalidIndex
  | some i =>
    if withTarget i.mnemonic sentinel = some i then
      match resolve prog target with
      | .error e => .error e
      | .ok addr =>
        match withTarget i.mnemonic addr with
        | none => .error .notPlaceholder
        | some j => .ok (prog.set idx j)
    else .error .notPlaceholder

/-- Patch the data-copy placeholder at index `idx` for the `Data` at index `target`: the source is the address of the first payload
byte, the size the stored length (30_encoding.md R125). -/
def patchCopy (prog : List Instr) (idx target : Nat) : Except Error (List Instr) :=
  match prog[idx]? with
  | none => .error .invalidIndex
  | some (.copyCodeMemory source _) =>
    if source = sentinel then
      match prog[target]? with
      | some (.data length _) =>
        match resolve prog target with
        | .error e => .error e
        | .ok addr =>
          if Config.maxWord.toNat < addr.toNat + Format.d.need then .error .tooLong
          else .ok (prog.set idx (.copyCodeMemory (addr + BitVec.ofNat 32 Format.d.need) length))
      | _ => .error .invalidIndex
    else .error .notPlaceholder
  | some _ => .error .notPlaceholder

/-- The Executable of a Program under an opcode map: its bytes, if it has an encoding no longer than `MAXW` (00_scope.md R8, 30_encoding.md R112). -/
def executable (opc : OpcodeMap) (prog : List Instr) : Except Error (List Byte) :=
  match compileWith opc.byte prog with
  | none => .error .wrongDataLength
  | some bytes => if Config.maxWord.toNat < bytes.length then .error .tooLong else .ok bytes

end Sys2Proof.Builder
end

