-- ==== Sys2Proof/Machine/Run.lean ====
section
/-! DEFINITION. `run`: the repetition of the step while the Machine is running (40_step_cycle.md R135, R136). -/

namespace Sys2Proof.Machine.State

/-- `run`, bounded: at most `n` steps, none from a terminal state (40_step_cycle.md R135). The spec's `run` is this for every `n`; a
program that never halts makes it never end (93_implementation_defined.md U16). -/
def runFor : Nat → State → State
  | 0, s => s
  | n + 1, s =>
    match step s with
    | .next t => runFor n t
    | .fault _ => s
    | .refused _ => s

end Sys2Proof.Machine.State
end

