-- ==== Sys2Proof/Safety.lean ====
section
/-! DEFINITION. The terms claims are stated in: the invariant of every reachable state, what counts as a good run, and what
two states share that differ in their output only. -/

namespace Sys2Proof.Machine.State

/-- What every step keeps and every legal construction has: `MEM` in canonical form with nothing listed outside `MEM_SIZE`
(10_state.md R32), at most 256 side registers, at most `MAXW` bytes of program (00_scope.md R8), and a legal opcode map
(30_encoding.md R100). -/
structure Inv (s : State) : Prop where
  /-- The memory list is in its one canonical form. -/
  canonical : s.mem.wf = true
  /-- No byte outside `MEM` is listed. -/
  inside : ∀ c ∈ s.mem, c.1 < s.memSize.toNat
  /-- `NREG <= 256`. -/
  nregBound : s.nreg ≤ Config.maxRegs
  /-- `EXE_LEN <= MAXW`. -/
  exeBound : s.exe.length ≤ Config.maxWord.toNat
  /-- `OPC` is injective and gives every mnemonic a byte. -/
  opcodes : s.opc.Legal

/-- The Machine has failed (10_state.md R30). -/
def HasFailed (s : State) : Prop := ∃ c, s.status = .failed c

/-- No run from here, however long, ends in a failure. -/
def NeverFails (s : State) : Prop := ∀ n, ¬ (s.runFor n).HasFailed

/-- The run from here ends by an executed `Halt`: the source's success (40_step_cycle.md R135, R137). -/
def Halts (s : State) : Prop := ∃ n, (s.runFor n).status = .halted

/-- The run from here never ends: a hang, which is not a failure (40_step_cycle.md R135). -/
def Hangs (s : State) : Prop := ∀ n, (s.runFor n).status = .running

end Sys2Proof.Machine.State

namespace Sys2Proof.Machine

/-- The execute phase of `i` in `s` raises this failure, and nothing but `status` is written (60_exceptions.md R284). -/
def Fails (i : Instr) (s : State) (c : Failure) : Prop :=
  exec i s = .next { s with status := .failed c }

/-- The execute phases of these instructions, one after another and none failing, take the first state to the second. -/
def Performs : List Instr → State → State → Prop
  | [], s, t => t = s
  | i :: is, s, t => ∃ u, exec i s = .next u ∧ ¬ u.HasFailed ∧ Performs is u t

/-- A sequence of `Push`/`Pop` and `PushRegister r`/`PopRegister r` pairs, side by side and nested (45_stack.md R246). -/
inductive Balanced : List Instr → Prop
  | nil : Balanced []
  | acc {inner rest : List Instr} (hi : Balanced inner) (hr : Balanced rest) :
    Balanced (.push :: inner ++ .pop :: rest)
  | reg (r : RegIdx) {inner rest : List Instr} (hi : Balanced inner) (hr : Balanced rest) :
    Balanced (.pushRegister r :: inner ++ .popRegister r :: rest)

/-- One well-formed UTF-8 sequence, as the table of 46_copy_syscall.md R262 lists them. -/
def Utf8Sequence : List Byte → Prop
  | [a] => a.toNat ≤ 0x7F
  | [a, b] => (0xC2 ≤ a.toNat ∧ a.toNat ≤ 0xDF) ∧ (0x80 ≤ b.toNat ∧ b.toNat ≤ 0xBF)
  | [a, b, c] =>
    (0x80 ≤ c.toNat ∧ c.toNat ≤ 0xBF) ∧
      ((a.toNat = 0xE0 ∧ 0xA0 ≤ b.toNat ∧ b.toNat ≤ 0xBF) ∨
       (0xE1 ≤ a.toNat ∧ a.toNat ≤ 0xEC ∧ 0x80 ≤ b.toNat ∧ b.toNat ≤ 0xBF) ∨
       (a.toNat = 0xED ∧ 0x80 ≤ b.toNat ∧ b.toNat ≤ 0x9F) ∨
       (0xEE ≤ a.toNat ∧ a.toNat ≤ 0xEF ∧ 0x80 ≤ b.toNat ∧ b.toNat ≤ 0xBF))
  | [a, b, c, d] =>
    (0x80 ≤ c.toNat ∧ c.toNat ≤ 0xBF) ∧ (0x80 ≤ d.toNat ∧ d.toNat ≤ 0xBF) ∧
      ((a.toNat = 0xF0 ∧ 0x90 ≤ b.toNat ∧ b.toNat ≤ 0xBF) ∨
       (0xF1 ≤ a.toNat ∧ a.toNat ≤ 0xF3 ∧ 0x80 ≤ b.toNat ∧ b.toNat ≤ 0xBF) ∨
       (a.toNat = 0xF4 ∧ 0x80 ≤ b.toNat ∧ b.toNat ≤ 0x8F))
  | _ => False

end Sys2Proof.Machine

namespace Sys2Proof

/-- Opcode byte `op` alone spells `i`, whatever follows: format N of 30_encoding.md R86. -/
def SpellsN (op : Byte) (i : Instr) : Prop :=
  i.size = 1 ∧ ∀ rest, decode (op :: rest) = .instr i

/-- Opcode byte `op` and four big-endian operand bytes spell `mk v`: format W of 30_encoding.md R86, R88. -/
def SpellsW (op : Byte) (mk : Word → Instr) : Prop :=
  ∀ (v3 v2 v1 v0 : Byte) (rest : List Byte),
    (mk (v3 ++ v2 ++ v1 ++ v0)).size = 5 ∧
    decode (op :: v3 :: v2 :: v1 :: v0 :: rest) = .instr (mk (v3 ++ v2 ++ v1 ++ v0))

/-- Opcode byte `op` and a register-index byte spell `mk r`: format R of 30_encoding.md R86. -/
def SpellsR (op : Byte) (mk : RegIdx → Instr) : Prop :=
  ∀ (r : Byte) (rest : List Byte), (mk r).size = 2 ∧ decode (op :: r :: rest) = .instr (mk r)

end Sys2Proof
end

