-- ==== Sys2Proof/Certificates/Slice0/Obligations.lean ====
section
/-! DEFINITION. The statements for the provers. Each docstring names the rule or section of spec/ it formalises, and, where the spec
marks a point as its own decision (92_eei_decisions.md) or the model made a choice, the log entry. `Fails i s c` is "the execute
phase of `i` in `s` writes `status = Failed c` and nothing else" (Safety.lean). -/

open Sys2Proof Sys2Proof.Machine

/-! ### Encoding -/

/-- The round trip of 30_encoding.md R112, "for every constructible Instruction value, decode(encode(i)) == i and size(i) ==
len(encode(i))"; its converse, which the spec marks as its own inference from R103 and R110; and the addresses of a compiled Program. For
every injective opcode map, as R100 asks. -/
def Obligations.EncodingsDecodeBackAndCompose : Prop :=
  ∀ opc : Mnemonic → Byte, Function.Injective opc →
    (∀ i : Instr, i.wf = true → ∃ bytes, encodeWith opc i = some bytes ∧ bytes.length = i.size ∧
      ∀ rest, decodeWith opc (bytes ++ rest) = .instr i) ∧
    (∀ buf i, decodeWith opc buf = .instr i → encodeWith opc i = some (buf.take i.size)) ∧
    (∀ (prog : List Instr) (bytes : List Byte), Builder.compileWith opc prog = some bytes →
      (∃ parts : List (List Byte), parts.length = prog.length ∧ bytes = parts.flatten ∧
        ∀ (k : Nat) (i : Instr), prog[k]? = some i → ∃ part, parts[k]? = some part ∧ encodeWith opc i = some part) ∧
      bytes.length = (prog.map Instr.size).sum ∧
      ∀ (k : Nat) (i : Instr), prog[k]? = some i → decodeWith opc (bytes.drop ((prog.take k).map Instr.size).sum) = .instr i)

/-- The opcode table with the bit picture of every format (30_encoding.md R86, R88, R100): every instruction, at every value of its
operands. The opcode numbers are the spec's decision D2 (notes/assumptions/2.md), the format of `Syscall` D4 (notes/assumptions/4.md). -/
def Obligations.OpcodeTableIsDecodedRowByRow : Prop :=
  SpellsN 0x00 .nop ∧ SpellsN 0x01 .halt ∧
  SpellsW 0x02 .load8 ∧ SpellsW 0x03 .load16 ∧ SpellsW 0x04 .load32 ∧
  SpellsW 0x05 .store8 ∧ SpellsW 0x06 .store16 ∧ SpellsW 0x07 .store32 ∧
  SpellsW 0x08 .set ∧
  (∀ (r v3 v2 v1 v0 : Byte) (rest : List Byte), (Instr.setRegister r (v3 ++ v2 ++ v1 ++ v0)).size = 6 ∧
    decode (0x09 :: r :: v3 :: v2 :: v1 :: v0 :: rest) = .instr (.setRegister r (v3 ++ v2 ++ v1 ++ v0))) ∧
  SpellsR 0x0A .deref8 ∧ SpellsR 0x0B .deref16 ∧ SpellsR 0x0C .deref32 ∧
  SpellsR 0x0D .swap ∧
  SpellsR 0x0E .write8 ∧ SpellsR 0x0F .write16 ∧ SpellsR 0x10 .write32 ∧
  SpellsN 0x11 .readStackPointer ∧ SpellsN 0x12 .writeStackPointer ∧
  SpellsW 0x13 .jump ∧ SpellsW 0x14 .call ∧ SpellsN 0x15 .ret ∧
  SpellsN 0x16 .increment ∧ SpellsN 0x17 .decrement ∧
  SpellsR 0x18 .incrementRegister ∧ SpellsR 0x19 .decrementRegister ∧
  SpellsR 0x1A .add ∧ SpellsR 0x1B .sub ∧ SpellsR 0x1C .mul ∧ SpellsR 0x1D .div ∧ SpellsR 0x1E .compare ∧
  SpellsW 0x1F .jumpEqual ∧ SpellsW 0x20 .jumpNotEqual ∧ SpellsW 0x21 .jumpGreater ∧ SpellsW 0x22 .jumpLess ∧
  SpellsW 0x23 .jumpGreaterEqual ∧ SpellsW 0x24 .jumpLessEqual ∧
  SpellsW 0x25 .jumpZero ∧ SpellsW 0x26 .jumpNonzero ∧
  SpellsN 0x27 .push ∧ SpellsN 0x28 .pop ∧ SpellsR 0x29 .pushRegister ∧ SpellsR 0x2A .popRegister ∧
  (∀ (s3 s2 s1 s0 n3 n2 n1 n0 : Byte) (rest : List Byte),
    (Instr.copyCodeMemory (s3 ++ s2 ++ s1 ++ s0) (n3 ++ n2 ++ n1 ++ n0)).size = 9 ∧
    decode (0x2B :: s3 :: s2 :: s1 :: s0 :: n3 :: n2 :: n1 :: n0 :: rest) =
      .instr (.copyCodeMemory (s3 ++ s2 ++ s1 ++ s0) (n3 ++ n2 ++ n1 ++ n0))) ∧
  SpellsW 0x2C .syscall ∧
  (∀ (l3 l2 l1 l0 : Byte) (payload rest : List Byte), payload.length = (l3 ++ l2 ++ l1 ++ l0 : Word).toNat →
    (Instr.data (l3 ++ l2 ++ l1 ++ l0) payload).size = 5 + payload.length ∧
    decode (0x2D :: l3 :: l2 :: l1 :: l0 :: (payload ++ rest)) = .instr (.data (l3 ++ l2 ++ l1 ++ l0) payload))

/-- The worked encodings of 30_encoding.md R114, both ways (their opcode numbers are decision D2, notes/assumptions/2.md). -/
def Obligations.WorkedEncodings : Prop :=
  ∀ p ∈ ([(.nop, [0x00]), (.halt, [0x01]), (.set 5, [0x08, 0, 0, 0, 5]), (.set 0x11223344, [0x08, 0x11, 0x22, 0x33, 0x44]),
      (.load8 258, [0x02, 0, 0, 1, 2]), (.setRegister 3 0xFFFFFFFF, [0x09, 3, 0xFF, 0xFF, 0xFF, 0xFF]), (.swap 0, [0x0D, 0]),
      (.div 255, [0x1D, 0xFF]), (.jumpNonzero 5, [0x26, 0, 0, 0, 5]),
      (.copyCodeMemory 10 13, [0x2B, 0, 0, 0, 0x0A, 0, 0, 0, 0x0D]), (.syscall 1, [0x2C, 0, 0, 0, 1]),
      (.data 3 [0x48, 0x69, 0], [0x2D, 0, 0, 0, 3, 0x48, 0x69, 0]), (.data 0 [], [0x2D, 0, 0, 0, 0])] :
      List (Instr × List Byte)),
    encode p.1 = some p.2 ∧ decode p.2 = .instr p.1

/-- When decoding fails, and with which of the two errors (30_encoding.md R101, R104, R105): the opcode is examined before the length.
For every injective opcode map, as R100 asks; which bytes the default map leaves out is decision D2 (notes/assumptions/2.md), the
errors of an empty buffer and of a short payload are D27 (notes/assumptions/29.md). -/
def Obligations.DecodeErrorsExactly : Prop :=
  (∀ opc : Mnemonic → Byte, Function.Injective opc →
    (∀ buf op, decodeWith opc buf = .unknownOpcode op ↔ ∃ tail, buf = op :: tail ∧ ∀ m, opc m ≠ op) ∧
    (∀ buf, decodeWith opc buf = .truncated ↔
      buf = [] ∨ (∃ m tail, buf = opc m :: tail ∧ buf.length < m.format.need) ∨
      ∃ (l3 l2 l1 l0 : Byte) (payload : List Byte),
        buf = opc .data :: l3 :: l2 :: l1 :: l0 :: payload ∧ payload.length < (l3 ++ l2 ++ l1 ++ l0 : Word).toNat)) ∧
  (∀ op : Byte, (∀ m, opcode m ≠ op) ↔ 0x2E ≤ op.toNat)

/-- The decoder reads no byte beyond `size(i)`, the whole instruction lies in the buffer, and what it gives has an encoding
(30_encoding.md R103, R106). For every opcode map. -/
def Obligations.DecodedInstructionLiesInTheBuffer : Prop :=
  ∀ (opc : Mnemonic → Byte) (buf : List Byte) (i : Instr), decodeWith opc buf = .instr i →
    i.size ≤ buf.length ∧ i.wf = true ∧ ∀ rest, decodeWith opc (buf.take i.size ++ rest) = .instr i

/-- The encoder's one refusal is a `Data` whose stored length is not its payload's; a payload of 2^32 bytes or more has no encoding
whatever its stored length (30_encoding.md R110, R111). -/
def Obligations.EncoderRefusesOnlyWrongDataLength : Prop :=
  ∀ opc : Mnemonic → Byte,
    (∀ i, encodeWith opc i = none ↔ ∃ length payload, i = .data length payload ∧ length.toNat ≠ payload.length) ∧
    (∀ length payload, 2 ^ 32 ≤ payload.length → encodeWith opc (.data length payload) = none)

/-! ### The step cycle -/

/-- A step on bytes that decode runs the decoded instruction with `pc` already advanced by its size; the advance does not wrap in a
program no longer than `MAXW` (40_step_cycle.md R133, 10_state.md R25). -/
def Obligations.StepRunsTheDecodedInstruction : Prop :=
  ∀ (s : State) (i : Instr), s.status = .running → s.pc.toNat < s.exe.length →
    decodeWith s.opc.byte (s.exe.drop s.pc.toNat) = .instr i →
    step s = exec i { s with pc := s.pc + BitVec.ofNat 32 i.size } ∧
    (s.exe.length ≤ Config.maxWord.toNat →
      (s.pc + BitVec.ofNat 32 i.size).toNat = s.pc.toNat + i.size ∧ s.pc.toNat + i.size ≤ s.exe.length)

/-- Fetch outside program memory fails and changes `status` only (40_step_cycle.md R131; that `EXE_LEN` itself is outside is decision D12,
notes/assumptions/14.md). -/
def Obligations.FetchOutsideTheProgramFails : Prop :=
  ∀ s : State, s.status = .running → s.exe.length ≤ s.pc.toNat →
    step s = .next { s with status := .failed (.programOutOfBounds s.pc) }

/-- 40_step_cycle.md R132: the three results of decoding, and that a decode failure changes `status` only. -/
def Obligations.DecodePhaseOfAStep : Prop :=
  ∀ s : State, s.status = .running → s.pc.toNat < s.exe.length →
    (decodeWith s.opc.byte (s.exe.drop s.pc.toNat) = .truncated →
      step s = .next { s with status := .failed (.decodeTruncated s.pc) }) ∧
    (∀ op, decodeWith s.opc.byte (s.exe.drop s.pc.toNat) = .unknownOpcode op →
      step s = .next { s with status := .failed (.decodeUnknownOpcode s.pc op) }) ∧
    (∀ i, decodeWith s.opc.byte (s.exe.drop s.pc.toNat) = .instr i →
      step s = exec i { s with pc := s.pc + BitVec.ofNat 32 i.size })

/-- A step is defined exactly from `Running`: there it answers a next state, never a fault or a refusal; a terminal Machine has no next
state (40_step_cycle.md R130, R136; no step from a terminal state is decision D23, notes/assumptions/17.md). -/
def Obligations.StepIsDefinedExactlyWhenRunning : Prop :=
  ∀ s : State,
    (s.status = .running → ∃ t, step s = .next t) ∧
    (s.status = .halted → step s = .fault .steppedHalted) ∧
    (∀ c, s.status = .failed c → step s = .fault .steppedFailed)

/-- The outcome of an execute phase: it failed and wrote `status` only, or it was `Halt`, or the Machine goes on running
(40_step_cycle.md R134, 60_exceptions.md R284; that a failing instruction writes nothing is decision D13, notes/assumptions/15.md). -/
def Obligations.ExecuteFailsHaltsOrGoesOn : Prop :=
  ∀ (i : Instr) (s : State), s.status = .running → ∃ t, exec i s = .next t ∧
    ((∃ c, t = { s with status := .failed c }) ∨ (i = .halt ∧ t.status = .halted) ∨ (i ≠ .halt ∧ t.status = .running))

/-- The instructions that never fail in their execute phase (60_exceptions.md R283), whatever the state and the operands. -/
def Obligations.InstructionsThatNeverFail : Prop :=
  ∀ (i : Instr) (s t : State),
    i.mnemonic ∈ [Mnemonic.nop, .halt, .data, .set, .readStackPointer, .writeStackPointer, .jump, .increment, .decrement,
      .jumpEqual, .jumpNotEqual, .jumpGreater, .jumpLess, .jumpGreaterEqual, .jumpLessEqual, .jumpZero, .jumpNonzero] →
    s.status = .running → exec i s = .next t → ¬ t.HasFailed

/-- 60_exceptions.md R295: the register index is judged before anything else, in each of the 17 instructions with a register operand, and
with 256 registers the check never fires. -/
def Obligations.RegisterIndexIsJudgedFirst : Prop :=
  (∀ v : Word, ∀ mk ∈ [Instr.deref8, .deref16, .deref32, .swap, .write8, .write16, .write32, .incrementRegister,
      .decrementRegister, .add, .sub, .mul, .div, .compare, .pushRegister, .popRegister, fun r => .setRegister r v],
    ∀ (s : State) (r : RegIdx), s.nreg ≤ r.toNat → Fails (mk r) s (.registerOutOfRange r)) ∧
  (∀ (i : Instr) (s t : State) (r : RegIdx), s.nreg = 256 → s.status = .running → exec i s = .next t →
    t.status ≠ .failed (.registerOutOfRange r))

/-- 40_step_cycle.md R135: `run` repeats the step while the Machine is running, and ends in `Halted` or `Failed` or never. -/
def Obligations.RunRepeatsTheStepUntilTerminal : Prop :=
  ∀ s : State,
    (∀ n t, step s = .next t → s.runFor (n + 1) = t.runFor n) ∧
    (∀ n m, (s.runFor n).status ≠ .running → s.runFor (n + m) = s.runFor n) ∧
    (s.Halts ∨ (∃ n, (s.runFor n).HasFailed) ∨ s.Hangs) ∧
    ¬ (s.Halts ∧ ∃ n, (s.runFor n).HasFailed) ∧ ¬ (s.Hangs ∧ (s.Halts ∨ ∃ n, (s.runFor n).HasFailed))

/-- A compiled Program runs instruction by instruction, whatever the opcode numbers: at the address of instruction `k` a step is the execute
phase of instruction `k`, with `pc` at the address of the next one (30_encoding.md R100, R112; 40_step_cycle.md R133). -/
def Obligations.CompiledProgramsRunInstructionByInstruction : Prop :=
  ∀ (s : State) (prog : List Instr) (k : Nat) (i : Instr), s.opc.Legal → s.status = .running →
    Builder.executable s.opc prog = .ok s.exe → prog[k]? = some i → s.pc.toNat = Builder.address prog k →
    step s = exec i { s with pc := BitVec.ofNat 32 (Builder.address prog (k + 1)) } ∧
    (BitVec.ofNat 32 (Builder.address prog (k + 1))).toNat = Builder.address prog (k + 1)

/-! ### Whole-machine rules -/

/-- 20_memory.md R52: "No instruction ever mutates the Executable", and no step or run does; nor do they change the other parameters
of the Machine (10_state.md R34). -/
def Obligations.ProgramMemoryIsImmutable : Prop :=
  (∀ (i : Instr) (s t : State), exec i s = .next t → t.exe = s.exe ∧ t.memSize = s.memSize ∧ t.nreg = s.nreg ∧ t.opc = s.opc) ∧
  (∀ s t : State, step s = .next t → t.exe = s.exe ∧ t.memSize = s.memSize ∧ t.nreg = s.nreg ∧ t.opc = s.opc) ∧
  (∀ (s : State) (n : Nat),
    (s.runFor n).exe = s.exe ∧ (s.runFor n).memSize = s.memSize ∧ (s.runFor n).nreg = s.nreg ∧ (s.runFor n).opc = s.opc)

/-- Every step keeps the invariant: `MEM` in canonical form and inside `MEM_SIZE`, `NREG` and `EXE_LEN` within their limits, a
legal opcode map (00_scope.md R8, 10_state.md R32, 30_encoding.md R100; the limits are decision D11, notes/assumptions/11.md). -/
def Obligations.StepKeepsTheInvariant : Prop :=
  ∀ s t : State, s.Inv → step s = .next t → t.Inv

/-- Every legal construction has the invariant, and so has State.reset, whose construction arguments are the model's choice
(notes/assumptions/11.md). -/
def Obligations.ConstructionHasTheInvariant : Prop :=
  (∀ exe memSize nreg cf (opc : OpcodeMap), exe.length ≤ Config.maxWord.toNat → nreg ≤ Config.maxRegs → opc.Legal →
    (State.construct exe memSize nreg cf opc).Inv) ∧ State.reset.Inv

/-- What construction leaves: the table of 10_state.md R36. Only `sp = MEM_SIZE` is the source's; the other values are decisions D8, D9
and D10 (notes/assumptions/8.md, 9.md, 10.md), and the comparison flag is the argument `RESET_CF`, whatever it is. -/
def Obligations.ConstructionLeavesTheResetValues : Prop :=
  ∀ exe memSize nreg cf opc,
    let s := State.construct exe memSize nreg cf opc
    s.sp = memSize ∧ s.pc = 0 ∧ s.acc = 0 ∧ s.zf = false ∧ s.cf = cf ∧ s.status = .running ∧ s.out = [] ∧
    s.exe = exe ∧ s.memSize = memSize ∧ s.nreg = nreg ∧ s.opc = opc ∧
    (∀ r : RegIdx, r.toNat < nreg → s.regs[r.toNat]? = some 0) ∧ ∀ a, s.mem.read a = 0

/-- Which instructions write each piece of state (10_state.md R23, R25, R26, R27, R29, R31; 20_memory.md R50). -/
def Obligations.WritersOfEachPieceOfState : Prop :=
  ∀ (i : Instr) (s t : State), exec i s = .next t →
    (t.acc ≠ s.acc → i.mnemonic ∈ [Mnemonic.load8, .load16, .load32, .set, .deref8, .deref16, .deref32, .swap,
      .readStackPointer, .increment, .decrement, .add, .sub, .mul, .div, .pop]) ∧
    (t.regs ≠ s.regs → i.mnemonic ∈ [Mnemonic.setRegister, .swap, .incrementRegister, .decrementRegister, .div, .popRegister]) ∧
    (t.pc ≠ s.pc → i.mnemonic ∈ [Mnemonic.jump, .call, .ret, .jumpEqual, .jumpNotEqual, .jumpGreater, .jumpLess,
      .jumpGreaterEqual, .jumpLessEqual, .jumpZero, .jumpNonzero]) ∧
    (t.sp ≠ s.sp → i.mnemonic ∈ [Mnemonic.push, .call, .pushRegister, .pop, .ret, .popRegister, .writeStackPointer]) ∧
    (t.zf ≠ s.zf → i.mnemonic ∈ [Mnemonic.increment, .decrement, .incrementRegister, .decrementRegister]) ∧
    (t.cf ≠ s.cf → i.mnemonic = .compare) ∧
    (t.mem ≠ s.mem → i.mnemonic ∈ [Mnemonic.store8, .store16, .store32, .write8, .write16, .write32, .push, .pushRegister,
      .call, .copyCodeMemory]) ∧
    (t.out ≠ s.out → i.mnemonic = .syscall)

/-- `OUT` only grows, and nothing reads it back: two Machines that differ in `OUT` alone take the same step and append the same bytes
(10_state.md R31, R33; that events are recorded as their bytes is decision D20, notes/assumptions/23.md). -/
def Obligations.OutputIsAppendedAndNeverRead : Prop :=
  ∀ s t : State, step s = .next t →
    ∃ emitted, t.out = s.out ++ emitted ∧
      ∀ earlier, step { s with out := earlier } = .next { t with out := earlier ++ emitted }

/-! ### Instructions: Nop, Halt, Data -/

/-- `Nop` and `Data` have no effect: a step moves `pc` past them and changes nothing else; a `Data` whose payload runs past the end of
`EXE` fails in decode (40_step_cycle.md R140, R142). Under every legal opcode map; the truncated payload is decision D27
(notes/assumptions/29.md). -/
def Obligations.NopAndDataAreSkipped : Prop :=
  ∀ s : State,
    exec .nop s = .next s ∧ (∀ length payload, exec (.data length payload) s = .next s) ∧
    (s.opc.Legal → s.status = .running →
      (∀ rest, s.exe.drop s.pc.toNat = s.opc.byte .nop :: rest → step s = .next { s with pc := s.pc + 1 }) ∧
      ∀ (l3 l2 l1 l0 : Byte) (tail : List Byte), s.exe.drop s.pc.toNat = s.opc.byte .data :: l3 :: l2 :: l1 :: l0 :: tail →
        ((l3 ++ l2 ++ l1 ++ l0 : Word).toNat ≤ tail.length →
          step s = .next { s with pc := s.pc + 5 + (l3 ++ l2 ++ l1 ++ l0) }) ∧
        (tail.length < (l3 ++ l2 ++ l1 ++ l0 : Word).toNat →
          step s = .next { s with status := .failed (.decodeTruncated s.pc) }))

/-- `Halt` sets `status` and changes nothing else, `pc` being past it; after it there is no step (40_step_cycle.md R141, R136). Under every
legal opcode map; no step from a terminal state is decision D23 (notes/assumptions/17.md). -/
def Obligations.HaltIsTerminal : Prop :=
  ∀ s : State,
    exec .halt s = .next { s with status := .halted } ∧
    (∀ rest, s.opc.Legal → s.status = .running → s.exe.drop s.pc.toNat = s.opc.byte .halt :: rest →
      step s = .next { s with pc := s.pc + 1, status := .halted } ∧
      step { s with pc := s.pc + 1, status := .halted } = .fault .steppedHalted)

/-! ### Loads, stores and register moves -/

/-- Four bytes of `MEM` as a word, the byte at the lowest address on top (20_memory.md R54). -/
def BytesAsWord (m : Memory) (a : Nat) : Word :=
  m.read a ++ m.read (a + 1) ++ m.read (a + 2) ++ m.read (a + 3)

/-- `Load8`, `Load16`, `Load32`: `acc` becomes the zero-extended big-endian value and nothing else changes; an access that leaves `MEM`
fails (41_data_movement.md R150 to R152; byte order by decision D5, bounds by D7: notes/assumptions/5.md, 7.md). -/
def Obligations.AbsoluteLoads : Prop :=
  ∀ (s : State) (addr : Word),
    (addr.toNat + 1 ≤ s.memSize.toNat →
      exec (.load8 addr) s = .next { s with acc := 0#24 ++ s.mem.read addr.toNat }) ∧
    (s.memSize.toNat < addr.toNat + 1 → Fails (.load8 addr) s (.memoryOutOfBounds addr)) ∧
    (addr.toNat + 2 ≤ s.memSize.toNat →
      exec (.load16 addr) s = .next { s with acc := 0#16 ++ s.mem.read addr.toNat ++ s.mem.read (addr.toNat + 1) }) ∧
    (s.memSize.toNat < addr.toNat + 2 → Fails (.load16 addr) s (.memoryOutOfBounds addr)) ∧
    (addr.toNat + 4 ≤ s.memSize.toNat →
      exec (.load32 addr) s = .next { s with acc := BytesAsWord s.mem addr.toNat }) ∧
    (s.memSize.toNat < addr.toNat + 4 → Fails (.load32 addr) s (.memoryOutOfBounds addr))

/-- `Deref8`, `Deref16`, `Deref32`: as the loads, at the address the side register holds, which is not changed (41_data_movement.md R158 to
R160; zero extension by decision D18, notes/assumptions/21.md, byte order by D5, bounds by D7). The index without a register is
in RegisterIndexIsJudgedFirst. -/
def Obligations.RegisterIndirectLoads : Prop :=
  ∀ (s : State) (reg : RegIdx) (a : Word), s.regs[reg.toNat]? = some a →
    (a.toNat + 1 ≤ s.memSize.toNat →
      exec (.deref8 reg) s = .next { s with acc := 0#24 ++ s.mem.read a.toNat }) ∧
    (s.memSize.toNat < a.toNat + 1 → Fails (.deref8 reg) s (.memoryOutOfBounds a)) ∧
    (a.toNat + 2 ≤ s.memSize.toNat →
      exec (.deref16 reg) s = .next { s with acc := 0#16 ++ s.mem.read a.toNat ++ s.mem.read (a.toNat + 1) }) ∧
    (s.memSize.toNat < a.toNat + 2 → Fails (.deref16 reg) s (.memoryOutOfBounds a)) ∧
    (a.toNat + 4 ≤ s.memSize.toNat →
      exec (.deref32 reg) s = .next { s with acc := BytesAsWord s.mem a.toNat }) ∧
    (s.memSize.toNat < a.toNat + 4 → Fails (.deref32 reg) s (.memoryOutOfBounds a))

/-- `Store8`, `Store16`, `Store32`: the low bytes of `acc` stand at the address, the most significant first; every other byte of `MEM` and
everything else is unchanged; an access that leaves `MEM` writes nothing and fails (41_data_movement.md R153 to R155; byte order by decision
D5, bounds by D7: notes/assumptions/5.md, 7.md). -/
def Obligations.AbsoluteStores : Prop :=
  ∀ (s : State) (addr : Word),
    (addr.toNat + 1 ≤ s.memSize.toNat → ∃ m, exec (.store8 addr) s = .next { s with mem := m } ∧
      m.read addr.toNat = s.acc.extractLsb' 0 8 ∧
      ∀ a, (a < addr.toNat ∨ addr.toNat + 1 ≤ a) → m.read a = s.mem.read a) ∧
    (s.memSize.toNat < addr.toNat + 1 → Fails (.store8 addr) s (.memoryOutOfBounds addr)) ∧
    (addr.toNat + 2 ≤ s.memSize.toNat → ∃ m, exec (.store16 addr) s = .next { s with mem := m } ∧
      m.read addr.toNat = s.acc.extractLsb' 8 8 ∧ m.read (addr.toNat + 1) = s.acc.extractLsb' 0 8 ∧
      ∀ a, (a < addr.toNat ∨ addr.toNat + 2 ≤ a) → m.read a = s.mem.read a) ∧
    (s.memSize.toNat < addr.toNat + 2 → Fails (.store16 addr) s (.memoryOutOfBounds addr)) ∧
    (addr.toNat + 4 ≤ s.memSize.toNat → ∃ m, exec (.store32 addr) s = .next { s with mem := m } ∧
      m.read addr.toNat = s.acc.extractLsb' 24 8 ∧ m.read (addr.toNat + 1) = s.acc.extractLsb' 16 8 ∧
      m.read (addr.toNat + 2) = s.acc.extractLsb' 8 8 ∧ m.read (addr.toNat + 3) = s.acc.extractLsb' 0 8 ∧
      ∀ a, (a < addr.toNat ∨ addr.toNat + 4 ≤ a) → m.read a = s.mem.read a) ∧
    (s.memSize.toNat < addr.toNat + 4 → Fails (.store32 addr) s (.memoryOutOfBounds addr))

/-- `Write8`, `Write16`, `Write32`: as the stores, at the address the addressing mode computes, which is the content of the side register
(41_data_movement.md R162 to R164; byte order by decision D5, bounds by D7: notes/assumptions/5.md, 7.md). The index without a register is
in RegisterIndexIsJudgedFirst. -/
def Obligations.RegisterIndirectStores : Prop :=
  ∀ (s : State) (reg : RegIdx),
    (∀ v, s.regs[reg.toNat]? = some v ↔ (AddrMode.indirect reg).effAddr s = .ok v) ∧
    ∀ addr : Word, (AddrMode.indirect reg).effAddr s = .ok addr →
    (addr.toNat + 1 ≤ s.memSize.toNat → ∃ m, exec (.write8 reg) s = .next { s with mem := m } ∧
      m.read addr.toNat = s.acc.extractLsb' 0 8 ∧
      ∀ a, (a < addr.toNat ∨ addr.toNat + 1 ≤ a) → m.read a = s.mem.read a) ∧
    (s.memSize.toNat < addr.toNat + 1 → Fails (.write8 reg) s (.memoryOutOfBounds addr)) ∧
    (addr.toNat + 2 ≤ s.memSize.toNat → ∃ m, exec (.write16 reg) s = .next { s with mem := m } ∧
      m.read addr.toNat = s.acc.extractLsb' 8 8 ∧ m.read (addr.toNat + 1) = s.acc.extractLsb' 0 8 ∧
      ∀ a, (a < addr.toNat ∨ addr.toNat + 2 ≤ a) → m.read a = s.mem.read a) ∧
    (s.memSize.toNat < addr.toNat + 2 → Fails (.write16 reg) s (.memoryOutOfBounds addr)) ∧
    (addr.toNat + 4 ≤ s.memSize.toNat → ∃ m, exec (.write32 reg) s = .next { s with mem := m } ∧
      m.read addr.toNat = s.acc.extractLsb' 24 8 ∧ m.read (addr.toNat + 1) = s.acc.extractLsb' 16 8 ∧
      m.read (addr.toNat + 2) = s.acc.extractLsb' 8 8 ∧ m.read (addr.toNat + 3) = s.acc.extractLsb' 0 8 ∧
      ∀ a, (a < addr.toNat ∨ addr.toNat + 4 ≤ a) → m.read a = s.mem.read a) ∧
    (s.memSize.toNat < addr.toNat + 4 → Fails (.write32 reg) s (.memoryOutOfBounds addr))

/-- `Set` and `SetRegister` write the literal to their one destination and change nothing else, no flag either (41_data_movement.md R156,
R157; the meaning of `SetRegister` is decision D17, notes/assumptions/20.md). -/
def Obligations.LiteralMoves : Prop :=
  ∀ (s : State) (value : Word),
    exec (.set value) s = .next { s with acc := value } ∧
    ∀ reg : RegIdx, reg.toNat < s.nreg →
      ∃ regs, exec (.setRegister reg value) s = .next { s with regs := regs } ∧ regs.length = s.regs.length ∧
        regs[reg.toNat]? = some value ∧ ∀ k, k ≠ reg.toNat → regs[k]? = s.regs[k]?

/-- `Swap` exchanges `acc` and the side register, both reads before both writes, and changes nothing else; done twice it restores both
(41_data_movement.md R161). -/
def Obligations.SwapExchanges : Prop :=
  ∀ (s : State) (reg : RegIdx) (v : Word), s.regs[reg.toNat]? = some v →
    exec (.swap reg) s = .next { s with acc := v, regs := s.regs.set reg.toNat s.acc } ∧
    exec (.swap reg) { s with acc := v, regs := s.regs.set reg.toNat s.acc } = .next s

/-- Data memory is big-endian bytes and nothing else: after a word is stored, each narrower load inside it sees the byte or the pair of bytes
at its address (20_memory.md R54, R55; decision D5, notes/assumptions/5.md). -/
def Obligations.NarrowLoadsOfAStoredWord : Prop :=
  ∀ (s : State) (addr : Word), addr.toNat + 4 ≤ s.memSize.toNat →
    ∃ t, exec (.store32 addr) s = .next t ∧
      exec (.load32 addr) t = .next { t with acc := s.acc } ∧
      (∀ k < 4, exec (.load8 (addr + BitVec.ofNat 32 k)) t =
        .next { t with acc := BitVec.ofNat 32 (s.acc.toNat / 256 ^ (3 - k) % 256) }) ∧
      (∀ k < 3, exec (.load16 (addr + BitVec.ofNat 32 k)) t =
        .next { t with acc := BitVec.ofNat 32 (s.acc.toNat / 256 ^ (2 - k) % 65536) })

/-! ### Stack pointer and control transfer -/

/-- `ReadStackPointer` and `WriteStackPointer` copy `sp` to `acc` and back, unchecked, and change nothing else
(42_stack_pointer_and_jumps.md R180, R181; no check is decision D16, notes/assumptions/19.md). -/
def Obligations.StackPointerMoves : Prop :=
  ∀ s : State,
    exec .readStackPointer s = .next { s with acc := s.sp } ∧
    exec .writeStackPointer s = .next { s with sp := s.acc } ∧
    ∀ t, exec .readStackPointer s = .next t → exec .writeStackPointer t = .next t

/-- `Jump` writes the absolute target to `pc` and changes nothing else; a target outside the program fails at the next fetch, the Builder's
sentinel `MAXW` always (42_stack_pointer_and_jumps.md R182, 30_encoding.md R126; the target is not checked by decision D25,
notes/assumptions/27.md). -/
def Obligations.JumpAndTheNextFetch : Prop :=
  ∀ (s : State) (addr : Word),
    exec (.jump addr) s = .next { s with pc := addr } ∧
    (s.status = .running → s.exe.length ≤ addr.toNat →
      step { s with pc := addr } = .next { s with pc := addr, status := .failed (.programOutOfBounds addr) }) ∧
    (s.Inv → s.status = .running → step { s with pc := Config.maxWord } =
      .next { s with pc := Config.maxWord, status := .failed (.programOutOfBounds Config.maxWord) })

/-- What a push stores and where, said once for `Push`, `PushRegister` and `Call`: the four bytes of `v`, most significant first, at
`sp - 4`, every other byte unchanged (45_stack.md R240). -/
def PushedBytes (s : State) (v : Word) (m : Memory) : Prop :=
  m.read (s.sp - 4#32).toNat = v.extractLsb' 24 8 ∧ m.read ((s.sp - 4#32).toNat + 1) = v.extractLsb' 16 8 ∧
  m.read ((s.sp - 4#32).toNat + 2) = v.extractLsb' 8 8 ∧ m.read ((s.sp - 4#32).toNat + 3) = v.extractLsb' 0 8 ∧
  ∀ a, (a < (s.sp - 4#32).toNat ∨ (s.sp - 4#32).toNat + 4 ≤ a) → m.read a = s.mem.read a

/-- `Call` pushes the already-advanced `pc` and jumps; the frame; and its two failures, in order (42_stack_pointer_and_jumps.md R183,
45_stack.md R240; byte order by decision D5, the stack checks by D15: notes/assumptions/5.md, 18.md). -/
def Obligations.CallPushesTheReturnAddress : Prop :=
  ∀ (s : State) (addr : Word),
    (4 ≤ s.sp.toNat → s.sp.toNat ≤ s.memSize.toNat →
      ∃ m, exec (.call addr) s = .next { s with mem := m, sp := s.sp - 4#32, pc := addr } ∧ PushedBytes s s.pc m) ∧
    (s.sp.toNat < 4 → Fails (.call addr) s .stackOverflow) ∧
    (4 ≤ s.sp.toNat → s.memSize.toNat < s.sp.toNat → Fails (.call addr) s (.memoryOutOfBounds (s.sp - 4#32)))

/-- `Push` and `PushRegister`: as the push of `Call`, of `acc` or of the side register, with nothing else changed (45_stack.md R240, R242, R244;
byte order by decision D5, the stack checks by D15: notes/assumptions/5.md, 18.md). -/
def Obligations.PushInstructions : Prop :=
  ∀ s : State,
    ((4 ≤ s.sp.toNat → s.sp.toNat ≤ s.memSize.toNat →
      ∃ m, exec .push s = .next { s with mem := m, sp := s.sp - 4#32 } ∧ PushedBytes s s.acc m) ∧
    (s.sp.toNat < 4 → Fails .push s .stackOverflow) ∧
    (4 ≤ s.sp.toNat → s.memSize.toNat < s.sp.toNat → Fails .push s (.memoryOutOfBounds (s.sp - 4#32)))) ∧
    ∀ (reg : RegIdx) (v : Word), s.regs[reg.toNat]? = some v →
    (4 ≤ s.sp.toNat → s.sp.toNat ≤ s.memSize.toNat →
      ∃ m, exec (.pushRegister reg) s = .next { s with mem := m, sp := s.sp - 4#32 } ∧ PushedBytes s v m) ∧
    (s.sp.toNat < 4 → Fails (.pushRegister reg) s .stackOverflow) ∧
    (4 ≤ s.sp.toNat → s.memSize.toNat < s.sp.toNat → Fails (.pushRegister reg) s (.memoryOutOfBounds (s.sp - 4#32)))

/-- `Pop`, `PopRegister` and `Return` take the word at `sp`, move `sp` up by four and change nothing else but their destination; a pop past the
top of `MEM` fails, without wrapping (45_stack.md R241, R243, R245; 42_stack_pointer_and_jumps.md R184; byte order by decision D5, the stack
check by D15: notes/assumptions/5.md, 18.md). -/
def Obligations.PopInstructions : Prop :=
  ∀ s : State,
    (s.sp.toNat + 4 ≤ s.memSize.toNat →
      exec .pop s = .next { s with acc := BytesAsWord s.mem s.sp.toNat, sp := s.sp + 4#32 } ∧
      exec .ret s = .next { s with pc := BytesAsWord s.mem s.sp.toNat, sp := s.sp + 4#32 } ∧
      (∀ reg : RegIdx, reg.toNat < s.nreg → exec (.popRegister reg) s =
        .next { s with regs := s.regs.set reg.toNat (BytesAsWord s.mem s.sp.toNat), sp := s.sp + 4#32 }) ∧
      (s.sp + 4#32).toNat = s.sp.toNat + 4) ∧
    (s.memSize.toNat < s.sp.toNat + 4 →
      Fails .pop s .stackUnderflow ∧ Fails .ret s .stackUnderflow ∧
      ∀ reg : RegIdx, reg.toNat < s.nreg → Fails (.popRegister reg) s .stackUnderflow)

/-- 45_stack.md R246: a word pushed by any of the three pushes is taken back by any of the three pops, as long as the slot and `sp` are left
alone, and any sequence of push and pop pairs restores `sp` and the registers. -/
def Obligations.StackSymmetry : Prop :=
  (∀ (s t : State) (v : Word), s.push v = .ok t → ∀ u : State, u.sp = t.sp → u.memSize = t.memSize →
    (∀ k < 4, u.mem.read (t.sp.toNat + k) = t.mem.read (t.sp.toNat + k)) →
    u.pop = .ok (v, { u with sp := s.sp })) ∧
  (∀ (i : Instr) (s t : State) (v : Word), s.status = .running →
    ((i = .push ∧ v = s.acc) ∨ (∃ r, i = .pushRegister r ∧ s.regs[r.toNat]? = some v) ∨ (∃ a, i = .call a ∧ v = s.pc)) →
    exec i s = .next t → t.status = .running → ∀ u : State, u.sp = t.sp → u.memSize = t.memSize →
    (∀ k < 4, u.mem.read (t.sp.toNat + k) = t.mem.read (t.sp.toNat + k)) →
    exec .pop u = .next { u with acc := v, sp := s.sp } ∧
    (∀ r : RegIdx, r.toNat < u.nreg → exec (.popRegister r) u = .next { u with regs := u.regs.set r.toNat v, sp := s.sp }) ∧
    exec .ret u = .next { u with pc := v, sp := s.sp }) ∧
  (∀ (is : List Instr) (s t : State), Balanced is → s.status = .running → Performs is s t →
    t.sp = s.sp ∧ t.acc = s.acc ∧ t.regs = s.regs)

/-! ### Arithmetic and compare -/

/-- `Increment` and `Decrement`: the wrapped result in `acc`, `zf` whether it is exactly zero, nothing else (43_arithmetic_compare.md R197, R198;
for a decrement of 0 this is the choice of 90_conflicts.md C2, notes/assumptions/25.md). -/
def Obligations.IncrementAndDecrement : Prop :=
  ∀ s : State,
    exec .increment s = .next { s with
      acc := BitVec.ofNat 32 ((s.acc.toNat + 1) % 2 ^ 32), zf := decide ((s.acc.toNat + 1) % 2 ^ 32 = 0) } ∧
    exec .decrement s = .next { s with
      acc := BitVec.ofNat 32 (if s.acc.toNat = 0 then 2 ^ 32 - 1 else s.acc.toNat - 1), zf := decide (s.acc.toNat = 1) }

/-- `IncrementRegister` and `DecrementRegister`: the same on a side register; `acc` and the other registers stay
(43_arithmetic_compare.md R199, R200; 90_conflicts.md C2, notes/assumptions/25.md). -/
def Obligations.IncrementAndDecrementRegister : Prop :=
  ∀ (s : State) (reg : RegIdx) (v : Word), s.regs[reg.toNat]? = some v →
    exec (.incrementRegister reg) s = .next { s with
      regs := s.regs.set reg.toNat (BitVec.ofNat 32 ((v.toNat + 1) % 2 ^ 32)), zf := decide ((v.toNat + 1) % 2 ^ 32 = 0) } ∧
    exec (.decrementRegister reg) s = .next { s with
      regs := s.regs.set reg.toNat (BitVec.ofNat 32 (if v.toNat = 0 then 2 ^ 32 - 1 else v.toNat - 1)),
      zf := decide (v.toNat = 1) }

/-- `Add`, `Sub` and `Mul`: the wrapped unsigned result in `acc`, no flag and nothing else written (43_arithmetic_compare.md R195, R201 to
R203). -/
def Obligations.AddSubMul : Prop :=
  ∀ (s : State) (reg : RegIdx) (v : Word), s.regs[reg.toNat]? = some v →
    exec (.add reg) s = .next { s with acc := BitVec.ofNat 32 ((s.acc.toNat + v.toNat) % 2 ^ 32) } ∧
    exec (.sub reg) s = .next { s with acc := BitVec.ofNat 32 ((2 ^ 32 + s.acc.toNat - v.toNat) % 2 ^ 32) } ∧
    exec (.mul reg) s = .next { s with acc := BitVec.ofNat 32 ((s.acc.toNat * v.toNat) % 2 ^ 32) }

/-- `Div`: quotient in `acc`, remainder in the side register, both of the old values, nothing else written; a divisor of zero fails without
mutating registers (43_arithmetic_compare.md R204; floor quotient and remainder by decision D30, notes/assumptions/31.md). -/
def Obligations.DivideWithRemainder : Prop :=
  ∀ (s : State) (reg : RegIdx) (d : Word), s.regs[reg.toNat]? = some d →
    (d.toNat ≠ 0 → ∃ q r : Word, exec (.div reg) s = .next { s with acc := q, regs := s.regs.set reg.toNat r } ∧
      s.acc.toNat = d.toNat * q.toNat + r.toNat ∧ r.toNat < d.toNat) ∧
    (d.toNat = 0 → Fails (.div reg) s .divisionByZero)

/-- `Compare`: `cf` is the unsigned relation of `acc` to the side register, and nothing else changes, the zero flag either
(43_arithmetic_compare.md R205; the direction is decision D19, notes/assumptions/22.md). -/
def Obligations.CompareSetsTheComparisonFlag : Prop :=
  ∀ (s : State) (reg : RegIdx) (v : Word), s.regs[reg.toNat]? = some v →
    ∃ c, exec (.compare reg) s = .next { s with cf := c } ∧
      (c = .less ↔ s.acc.toNat < v.toNat) ∧ (c = .equal ↔ s.acc.toNat = v.toNat) ∧ (c = .greater ↔ v.toNat < s.acc.toNat)

/-! ### Conditional jumps -/

/-- 44_conditional_jumps.md R220: format W, `if cond then pc <- addr` with a condition on one flag only, nothing else written, and a taken jump
outside the program fails at the next fetch. -/
def Obligations.ConditionalJumpShape : Prop :=
  (∀ mk ∈ [Instr.jumpEqual, .jumpNotEqual, .jumpGreater, .jumpLess, .jumpGreaterEqual, .jumpLessEqual],
    ∃ cond : Comparison → Bool, ∀ (s : State) (addr : Word),
      exec (mk addr) s = .next (if cond s.cf then { s with pc := addr } else s)) ∧
  (∀ mk ∈ [Instr.jumpZero, .jumpNonzero], ∃ cond : Bool → Bool, ∀ (s : State) (addr : Word),
    exec (mk addr) s = .next (if cond s.zf then { s with pc := addr } else s)) ∧
  (∀ mk ∈ [Instr.jumpEqual, .jumpNotEqual, .jumpGreater, .jumpLess, .jumpGreaterEqual, .jumpLessEqual, .jumpZero, .jumpNonzero],
    ∀ addr, (mk addr).mnemonic.format = .w ∧ operandBytes (mk addr) = be 4 addr.toNat) ∧
  (∀ (s : State) (addr : Word), s.status = .running → s.exe.length ≤ addr.toNat →
    step { s with pc := addr } = .next { s with pc := addr, status := .failed (.programOutOfBounds addr) })

/-- The truth tables of the eight conditional jumps (44_conditional_jumps.md R221 to R228; those on `cf` are decision D19,
notes/assumptions/22.md). -/
def Obligations.ConditionalJumpTruthTables : Prop :=
  ∀ (s : State) (addr : Word),
    let taken := State.mk s.acc s.regs addr s.sp s.zf s.cf s.status s.out s.mem s.memSize s.exe s.opc
    (s.cf = .less →
      exec (.jumpEqual addr) s = .next s ∧ exec (.jumpNotEqual addr) s = .next taken ∧
      exec (.jumpGreater addr) s = .next s ∧ exec (.jumpLess addr) s = .next taken ∧
      exec (.jumpGreaterEqual addr) s = .next s ∧ exec (.jumpLessEqual addr) s = .next taken) ∧
    (s.cf = .equal →
      exec (.jumpEqual addr) s = .next taken ∧ exec (.jumpNotEqual addr) s = .next s ∧
      exec (.jumpGreater addr) s = .next s ∧ exec (.jumpLess addr) s = .next s ∧
      exec (.jumpGreaterEqual addr) s = .next taken ∧ exec (.jumpLessEqual addr) s = .next taken) ∧
    (s.cf = .greater →
      exec (.jumpEqual addr) s = .next s ∧ exec (.jumpNotEqual addr) s = .next taken ∧
      exec (.jumpGreater addr) s = .next taken ∧ exec (.jumpLess addr) s = .next s ∧
      exec (.jumpGreaterEqual addr) s = .next taken ∧ exec (.jumpLessEqual addr) s = .next s) ∧
    (s.zf = true → exec (.jumpZero addr) s = .next taken ∧ exec (.jumpNonzero addr) s = .next s) ∧
    (s.zf = false → exec (.jumpZero addr) s = .next s ∧ exec (.jumpNonzero addr) s = .next taken)

/-- After `Compare r`, each comparison jump is taken exactly when its relation of `acc` to `x[r]` held at the `Compare`, whatever `acc` and the
registers hold by then: the third column of the table in 44_conditional_jumps.md section 2 (decision D19, notes/assumptions/22.md). -/
def Obligations.JumpsAfterACompare : Prop :=
  ∀ (s : State) (reg : RegIdx) (v : Word), s.regs[reg.toNat]? = some v →
    ∃ t, exec (.compare reg) s = .next t ∧ ∀ (u : State) (addr : Word), u.cf = t.cf →
      exec (.jumpEqual addr) u = .next (if s.acc = v then { u with pc := addr } else u) ∧
      exec (.jumpNotEqual addr) u = .next (if s.acc = v then u else { u with pc := addr }) ∧
      exec (.jumpGreater addr) u = .next (if v.toNat < s.acc.toNat then { u with pc := addr } else u) ∧
      exec (.jumpLess addr) u = .next (if s.acc.toNat < v.toNat then { u with pc := addr } else u) ∧
      exec (.jumpGreaterEqual addr) u = .next (if v.toNat ≤ s.acc.toNat then { u with pc := addr } else u) ∧
      exec (.jumpLessEqual addr) u = .next (if s.acc.toNat ≤ v.toNat then { u with pc := addr } else u)

/-! ### CopyCodeMemory and Syscall -/

/-- `CopyCodeMemory`: the bytes of `EXE` at the source stand in `MEM` at `acc`, every other byte and everything else unchanged; the source range
is judged first, and a failing copy writes nothing (46_copy_syscall.md R255; the order is decision D26, notes/assumptions/28.md). -/
def Obligations.CopyCodeMemoryCopies : Prop :=
  ∀ (s : State) (source size : Word),
    (source.toNat + size.toNat ≤ s.exe.length → s.acc.toNat + size.toNat ≤ s.memSize.toNat →
      ∃ m, exec (.copyCodeMemory source size) s = .next { s with mem := m } ∧
        (∀ k < size.toNat, s.exe[source.toNat + k]? = some (m.read (s.acc.toNat + k))) ∧
        ∀ a, (a < s.acc.toNat ∨ s.acc.toNat + size.toNat ≤ a) → m.read a = s.mem.read a) ∧
    (s.exe.length < source.toNat + size.toNat → Fails (.copyCodeMemory source size) s (.programOutOfBounds source)) ∧
    (source.toNat + size.toNat ≤ s.exe.length → s.memSize.toNat < s.acc.toNat + size.toNat →
      Fails (.copyCodeMemory source size) s (.memoryOutOfBounds s.acc))

/-- `Syscall`: 0 prints the string as a line, 1 the number, 2 the string, any other index fails, and nothing but `OUT` is written; a string
that cannot be read fails with its own cause and nothing is emitted (46_copy_syscall.md R260, R264; decisions D20 and D21,
notes/assumptions/23.md, 24.md). What `cstr` and `decimal` give is stated below. -/
def Obligations.SyscallDispatch : Prop :=
  ∀ s : State,
    (∀ bytes, s.cstr s.acc = .ok bytes →
      exec (.syscall 0) s = .next { s with out := s.out ++ bytes ++ [0x0A] } ∧
      exec (.syscall 2) s = .next { s with out := s.out ++ bytes }) ∧
    (∀ c, s.cstr s.acc = .error c → Fails (.syscall 0) s c ∧ Fails (.syscall 2) s c) ∧
    exec (.syscall 1) s = .next { s with out := s.out ++ decimal s.acc } ∧
    ∀ index : Word, 3 ≤ index.toNat → Fails (.syscall index) s (.unknownSyscall index)

/-- `cstr(a)`: the bytes up to the first zero byte in `MEM`, with its three failures in order (46_copy_syscall.md R261; the conditions are decision
D20, notes/assumptions/23.md). -/
def Obligations.StringsEndAtTheFirstZeroByte : Prop :=
  ∀ (s : State) (a : Word),
    (s.memSize.toNat ≤ a.toNat → s.cstr a = .error (.memoryOutOfBounds a)) ∧
    (a.toNat < s.memSize.toNat → (∀ k, a.toNat + k < s.memSize.toNat → s.mem.read (a.toNat + k) ≠ 0) →
      s.cstr a = .error (.stringUnterminated a)) ∧
    (∀ bytes : List Byte, a.toNat + bytes.length < s.memSize.toNat → s.mem.read (a.toNat + bytes.length) = 0 →
      (∀ k b, bytes[k]? = some b → s.mem.read (a.toNat + k) = b ∧ b ≠ 0) →
      s.cstr a = if utf8Valid bytes then .ok bytes else .error (.stringInvalidUtf8 a))

/-- `utf8_valid` holds of exactly the concatenations of well-formed sequences, and so of every ASCII string (46_copy_syscall.md R262; the table is
from general knowledge, notes/assumptions/30.md). -/
def Obligations.Utf8ValidityIsTheTable : Prop :=
  (∀ bytes : List Byte, utf8Valid bytes = true ↔
    ∃ sequences : List (List Byte), bytes = sequences.flatten ∧ ∀ q ∈ sequences, Utf8Sequence q) ∧
  (∀ bytes : List Byte, (∀ b ∈ bytes, b.toNat < 0x80) → utf8Valid bytes = true)

/-- `decimal(v)`: one to ten ASCII digits that spell the unsigned value in base ten, with no leading zero but in "0" itself (46_copy_syscall.md R263;
decision D20, notes/assumptions/23.md). -/
def Obligations.DecimalSpellsTheUnsignedValue : Prop :=
  ∀ v : Word,
    (∀ b ∈ decimal v, 0x30 ≤ b.toNat ∧ b.toNat ≤ 0x39) ∧
    1 ≤ (decimal v).length ∧ (decimal v).length ≤ 10 ∧
    (decimal v).foldl (fun n b => 10 * n + (b.toNat - 0x30)) 0 = v.toNat ∧
    ((decimal v).head? = some 0x30 → decimal v = [0x30])

/-! ### The Program Builder -/

/-- Patching a jump placeholder writes the address of the target instruction into it and changes no other instruction; what is no jump to the
sentinel is refused, a resolved placeholder among them (30_encoding.md R123, R127; that a resolved one is refused is the model's choice,
notes/assumptions/34.md). -/
def Obligations.PatchingAJumpPlaceholder : Prop :=
  ∀ (prog : List Instr) (idx target : Nat),
    (∀ i, prog[idx]? = some i → (∀ m, Builder.withTarget m Builder.sentinel ≠ some i) →
      Builder.patchJump prog idx target = .error .notPlaceholder) ∧
    (∀ m i, Builder.withTarget m Builder.sentinel = some i → prog[idx]? = some i → target < prog.length →
      ((prog.take target).map Instr.size).sum < 2 ^ 32 - 1 →
      ∃ j, Builder.withTarget m (BitVec.ofNat 32 ((prog.take target).map Instr.size).sum) = some j ∧
        Builder.patchJump prog idx target = .ok (prog.set idx j) ∧
        ∀ other, Builder.patchJump (prog.set idx j) idx other = .error .notPlaceholder)
end

