-- ==== Sys2Proof/Laws/Builder.lean ====
section
/-! SUPPORT. The addresses of a Program (30_encoding.md R112) and what `executable` says. -/

namespace Sys2Proof

theorem Instr.size_pos (i : Instr) : 0 < i.size := by
  cases i <;> simp [Instr.size, Instr.mnemonic, Mnemonic.format, Format.need]

namespace Builder

@[simp] theorem address_zero (prog : List Instr) : address prog 0 = 0 := rfl

/-- The next instruction stands right after this one. -/
theorem address_succ {prog : List Instr} {k : Nat} {i : Instr} (h : prog[k]? = some i) :
    address prog (k + 1) = address prog k + i.size := by
  obtain ⟨hlt, rfl⟩ := List.getElem?_eq_some_iff.1 h
  rw [address, List.take_succ_eq_append_getElem hlt, List.map_append, List.sum_append, List.map_singleton, List.sum_singleton, address]

/-- No instruction stands beyond the end of the Program. -/
theorem address_le (prog : List Instr) (k : Nat) : address prog k ≤ (prog.map Instr.size).sum := by
  conv_rhs => rw [← List.take_append_drop k prog, List.map_append, List.sum_append]
  exact Nat.le_add_right _ _

/-- An Executable is the compiled Program and no longer than `MAXW`. -/
theorem executable_ok {opc : OpcodeMap} {prog : List Instr} {bytes : List Byte} (h : executable opc prog = .ok bytes) :
    compileWith opc.byte prog = some bytes ∧ bytes.length ≤ Config.maxWord.toNat := by
  unfold executable at h
  split at h
  · cases h
  · next b hb =>
    split at h
    · cases h
    · next hle =>
      injection h with h
      subst h
      exact ⟨hb, Nat.not_lt.1 hle⟩

end Builder

end Sys2Proof
end

