-- ==== Sys2Proof/Laws/Bytes.lean ====
section
/-! SUPPORT. `be` and `unbe` are inverse to each other (00_scope.md R11). -/

namespace Sys2Proof

@[simp] theorem be_length (n v : Nat) : (be n v).length = n := by
  induction n generalizing v with
  | zero => rfl
  | succ n ih => simp [be, ih]

@[simp] theorem unbe_nil : unbe [] = 0 := rfl

theorem unbe_cons (b : Byte) (bs : List Byte) : unbe (b :: bs) = b.toNat * 256 ^ bs.length + unbe bs := by
  rw [unbe, Nat.mul_comm]

theorem unbe_lt (bs : List Byte) : unbe bs < 256 ^ bs.length := by
  induction bs with
  | nil => simp
  | cons b bs ih =>
    have hb := b.isLt
    rw [unbe_cons, List.length_cons, Nat.pow_succ]
    calc b.toNat * 256 ^ bs.length + unbe bs < b.toNat * 256 ^ bs.length + 256 ^ bs.length := by omega
      _ = (b.toNat + 1) * 256 ^ bs.length := by ring
      _ ≤ 256 * 256 ^ bs.length := Nat.mul_le_mul_right _ (by omega)
      _ = 256 ^ bs.length * 256 := Nat.mul_comm _ _

/-- Spelling a number in `n` bytes and reading it back keeps it modulo `2^(8n)`. -/
theorem unbe_be (n v : Nat) : unbe (be n v) = v % 256 ^ n := by
  induction n with
  | zero => simp [be, Nat.mod_one]
  | succ n ih =>
    have h : v % 256 ^ (n + 1) = v % 256 ^ n + 256 ^ n * (v / 256 ^ n % 256) := by rw [Nat.pow_succ, Nat.mod_mul]
    rw [be, unbe_cons, be_length, ih, BitVec.toNat_ofNat, h, Nat.mul_comm, Nat.add_comm]

/-- Only the low `n` bytes of a number are spelled. -/
theorem be_mod (n v : Nat) : be n (v % 256 ^ n) = be n v := by
  suffices h : ∀ k, be n (v % 256 ^ (n + k)) = be n v by simpa using h 0
  induction n with
  | zero => simp [be]
  | succ n ih =>
    intro k
    have h1 : n + 1 + k = n + (k + 1) := by omega
    rw [be, be, h1, ih (k + 1), pow_add, Nat.mod_mul_right_div_self]
    congr 1
    apply BitVec.eq_of_toNat_eq
    simp only [BitVec.toNat_ofNat, Nat.reducePow]
    exact Nat.mod_mod_of_dvd _ ⟨256 ^ k, by rw [pow_succ]; ring⟩

/-- Reading `n` bytes as a number and spelling it again gives the bytes back. -/
theorem be_unbe (bs : List Byte) : be bs.length (unbe bs) = bs := by
  induction bs with
  | nil => rfl
  | cons b bs ih =>
    have hlt := unbe_lt bs
    have hpos : 0 < 256 ^ bs.length := Nat.pow_pos (by omega)
    rw [List.length_cons, be, unbe_cons]
    congr 1
    · rw [Nat.mul_comm, Nat.mul_add_div hpos, Nat.div_eq_of_lt hlt, Nat.add_zero]
      simp
    · rw [← be_mod, Nat.mul_comm, Nat.mul_add_mod, Nat.mod_eq_of_lt hlt, ih]

/-- Two byte sequences of one length that spell the same number are the same. -/
theorem unbe_inj {as bs : List Byte} (hl : as.length = bs.length) (h : unbe as = unbe bs) : as = bs := by
  rw [← be_unbe as, ← be_unbe bs, hl, h]

/-- The four bytes of a word operand read as the word (30_encoding.md R81). -/
theorem ofNat_unbe_wordBytesOf (v : Word) : BitVec.ofNat 32 (unbe (wordBytesOf v)) = v := by
  apply BitVec.eq_of_toNat_eq
  have := v.isLt
  rw [wordBytesOf, unbe_be, BitVec.toNat_ofNat]
  simp only [Config.wordBytes_eq, Nat.reducePow] at *
  omega

@[simp] theorem wordBytesOf_length (v : Word) : (wordBytesOf v).length = 4 := by simp [wordBytesOf]

/-- Four bytes read as the word with the first one on top, the picture of 30_encoding.md R88. -/
theorem ofNat_unbe_four (a b c d : Byte) : BitVec.ofNat 32 (unbe [a, b, c, d]) = a ++ b ++ c ++ d := by
  apply BitVec.eq_of_toNat_eq
  have ha := a.isLt
  have hb := b.isLt
  have hc := c.isLt
  have hd := d.isLt
  have shl : ∀ (x : Nat) (y : Byte), x <<< 8 ||| y.toNat = x * 256 + y.toNat := fun x y => by
    rw [← Nat.shiftLeft_add_eq_or_of_lt y.isLt, Nat.shiftLeft_eq]
  simp only [unbe_cons, unbe_nil, List.length_cons, List.length_nil, BitVec.toNat_append, BitVec.toNat_ofNat, shl]
  omega

/-- Two bytes read as the zero-extended word with the first one above the second. -/
theorem ofNat_unbe_two (a b : Byte) : BitVec.ofNat 32 (unbe [a, b]) = 0#16 ++ a ++ b := by
  have h := ofNat_unbe_four 0 0 a b
  rw [unbe_cons, unbe_cons] at h
  simpa using h

/-- One byte read as the zero-extended word. -/
theorem ofNat_unbe_one (a : Byte) : BitVec.ofNat 32 (unbe [a]) = 0#24 ++ a := by
  have h := ofNat_unbe_two 0 a
  rw [unbe_cons] at h
  simpa using h

/-- The four bytes of a word, the top one first. -/
theorem be_four (v : Word) :
    be 4 v.toNat = [v.extractLsb' 24 8, v.extractLsb' 16 8, v.extractLsb' 8 8, v.extractLsb' 0 8] := by
  have h : ∀ k, BitVec.ofNat 8 (v.toNat / 256 ^ k) = v.extractLsb' (8 * k) 8 := fun k => by
    apply BitVec.eq_of_toNat_eq
    simp [Nat.shiftRight_eq_div_pow, pow_mul]
  simp only [be, h]

/-- The low two bytes of a word, the higher one first. -/
theorem be_two (v : Word) : be 2 v.toNat = [v.extractLsb' 8 8, v.extractLsb' 0 8] := by
  have h := be_four v
  simp only [be, List.cons.injEq] at h ⊢
  exact h.2.2

/-- The low byte of a word. -/
theorem be_one (v : Word) : be 1 v.toNat = [v.extractLsb' 0 8] := by
  have h := be_two v
  simp only [be, List.cons.injEq] at h ⊢
  exact h.2

end Sys2Proof
end

