-- ==== Sys2Proof/Laws/Codec.lean ====
section
/-! SUPPORT. The codec: which mnemonic an opcode byte spells, what an instruction with an encoding looks like, and reading the operands of
an encoded instruction back (30_encoding.md R103, R110, R112). -/

namespace Sys2Proof

theorem mem_all (m : Mnemonic) : m ∈ Mnemonic.all := by cases m <;> decide

/-- Under an injective map an opcode byte spells its own mnemonic. -/
theorem mnemonicOf_opc {opc : Mnemonic → Byte} (hinj : Function.Injective opc) (m : Mnemonic) :
    mnemonicOf opc (opc m) = some m := by
  obtain ⟨m', hm'⟩ : ∃ m', mnemonicOf opc (opc m) = some m' :=
    Option.isSome_iff_exists.1 (List.find?_isSome.2 ⟨m, mem_all m, by simp⟩)
  have h : opc m' = opc m := by simpa using List.find?_some hm'
  rw [hm', hinj h]

theorem opc_of_mnemonicOf {opc : Mnemonic → Byte} {op : Byte} {m : Mnemonic} (h : mnemonicOf opc op = some m) :
    opc m = op := by
  simpa using List.find?_some h

/-- A byte spells no mnemonic exactly when it is no mnemonic's opcode. -/
theorem mnemonicOf_eq_none {opc : Mnemonic → Byte} {op : Byte} : mnemonicOf opc op = none ↔ ∀ m, opc m ≠ op := by
  refine ⟨fun h m => by simpa using List.find?_eq_none.1 h m (mem_all m), fun h => ?_⟩
  exact List.find?_eq_none.2 fun m _ => by simpa using h m

/-- The default opcode map is injective. -/
theorem opcode_injective : Function.Injective opcode := by
  have self : ∀ m, mnemonicOf opcode (opcode m) = some m := by intro m; cases m <;> rfl
  intro a b h
  have ha := self a
  rw [h, self b] at ha
  exact (Option.some.inj ha).symm

/-- The bytes that spell no mnemonic under the default map. -/
theorem mnemonicOf_opcode_eq_none {op : Byte} : mnemonicOf opcode op = none ↔ 0x2E ≤ op.toNat := by
  revert op
  decide +kernel

/-! ### Maps as data -/

@[simp] theorem OpcodeMap.byte_ofMap (opc : Mnemonic → Byte) : (OpcodeMap.ofMap opc).byte = opc := by
  funext m
  cases m <;> rfl

theorem OpcodeMap.legal_ofMap {opc : Mnemonic → Byte} (h : Function.Injective opc) : (OpcodeMap.ofMap opc).Legal :=
  ⟨List.length_map .., by rw [OpcodeMap.byte_ofMap]; exact h⟩

@[simp] theorem OpcodeMap.byte_standard : OpcodeMap.standard.byte = opcode := OpcodeMap.byte_ofMap opcode

theorem OpcodeMap.legal_standard : OpcodeMap.standard.Legal := OpcodeMap.legal_ofMap opcode_injective

/-! ### Operands -/

theorem wordAt_of_prefix (pre : List Byte) (v : Word) (rest : List Byte) :
    wordAt (pre ++ (wordBytesOf v ++ rest)) pre.length = v := by
  rw [wordAt, List.drop_left, Config.wordBytes_eq, List.take_append_of_le_length (by simp), List.take_of_length_le (by simp)]
  exact ofNat_unbe_wordBytesOf v

theorem wordAt_one (op : Byte) (v : Word) (rest : List Byte) : wordAt (op :: (wordBytesOf v ++ rest)) 1 = v :=
  wordAt_of_prefix [op] v rest

theorem wordAt_two (op r : Byte) (v : Word) (rest : List Byte) : wordAt (op :: r :: (wordBytesOf v ++ rest)) 2 = v :=
  wordAt_of_prefix [op, r] v rest

theorem wordAt_five (op : Byte) (u v : Word) (rest : List Byte) :
    wordAt (op :: (wordBytesOf u ++ (wordBytesOf v ++ rest))) 5 = v := by
  have h := wordAt_of_prefix (op :: wordBytesOf u) v rest
  simpa using h

theorem payload_read (op : Byte) (v : Word) (payload rest : List Byte) (h : v.toNat = payload.length) :
    ((op :: (wordBytesOf v ++ (payload ++ rest))).drop 5).take v.toNat = payload := by
  have h5 : (op :: (wordBytesOf v ++ (payload ++ rest))).drop 5 = payload ++ rest := by
    simp
  rw [h5, h, List.take_left]

/-- A well-formed `Data` stores the length of its payload; every other instruction is well formed. -/
theorem wf_data {length : Word} {payload : List Byte} : (Instr.data length payload).wf = true ↔ length.toNat = payload.length := by
  simp [Instr.wf]

/-- `size(i)` is the length of the encoding. -/
theorem operandBytes_length (i : Instr) (h : i.wf = true) : (operandBytes i).length + 1 = i.size := by
  cases i with
  | data length payload =>
    have := wf_data.1 h
    simp only [operandBytes, List.length_append, wordBytesOf_length, Instr.size, Instr.mnemonic, Mnemonic.format, Format.need,
      Instr.payloadLength, Config.wordBytes_eq]
    omega
  | _ => simp [operandBytes, Instr.size, Instr.mnemonic, Mnemonic.format, Format.need, Instr.payloadLength]

/-- Reading the operands of an encoded instruction gives the instruction back. -/
theorem readOperands_encoded (op : Byte) (i : Instr) (h : i.wf = true) (rest : List Byte) :
    readOperands i.mnemonic (op :: (operandBytes i ++ rest)) = i := by
  cases i with
  | data length payload =>
    have hl := wf_data.1 h
    simp only [readOperands, Instr.mnemonic, operandBytes, List.append_assoc, wordAt_one, payload_read op length payload rest hl]
  | copyCodeMemory s n =>
    simp only [readOperands, Instr.mnemonic, operandBytes, List.append_assoc, wordAt_one, wordAt_five]
  | setRegister r v =>
    simp only [readOperands, Instr.mnemonic, operandBytes, List.cons_append, wordAt_two, byteAt, List.getD_cons_succ,
      List.getD_cons_zero]
  | _ =>
    simp only [readOperands, Instr.mnemonic, operandBytes, List.cons_append, List.nil_append, wordAt_one, byteAt,
      List.getD_cons_succ, List.getD_cons_zero]

theorem encodeWith_some {opc : Mnemonic → Byte} {i : Instr} {bytes : List Byte} :
    encodeWith opc i = some bytes ↔ i.wf = true ∧ bytes = opc i.mnemonic :: operandBytes i := by
  by_cases h : i.wf = true <;> simp [encodeWith, h, eq_comm]

/-- The mnemonic of the instruction that is read is the one it was read for. -/
@[simp] theorem readOperands_mnemonic (m : Mnemonic) (buf : List Byte) : (readOperands m buf).mnemonic = m := by
  cases m <;> rfl

/-- What the decoder answering an instruction says. -/
theorem decodeWith_instr {opc : Mnemonic → Byte} {buf : List Byte} {i : Instr} (h : decodeWith opc buf = .instr i) :
    ∃ op tail, buf = op :: tail ∧ mnemonicOf opc op = some i.mnemonic ∧ i = readOperands i.mnemonic buf ∧
      i.mnemonic.format.need ≤ buf.length ∧ i.size ≤ buf.length := by
  unfold decodeWith at h
  split at h
  · cases h
  · next op tail =>
    split at h
    · cases h
    · next m hm =>
      split at h
      · cases h
      · next h1 =>
        split at h
        · cases h
        · next h2 =>
          injection h with h
          subst h
          exact ⟨op, tail, rfl, by rw [hm, readOperands_mnemonic], by rw [readOperands_mnemonic],
            by rw [readOperands_mnemonic]; omega, by omega⟩

/-- The operand bytes of a word that was read are the bytes it was read from. -/
theorem wordBytesOf_wordAt {buf : List Byte} {k : Nat} (h : k + 4 ≤ buf.length) :
    wordBytesOf (wordAt buf k) = (buf.drop k).take 4 := by
  have hl : ((buf.drop k).take 4).length = 4 := by simp; omega
  have hlt := unbe_lt ((buf.drop k).take 4)
  rw [hl] at hlt
  have hb := be_unbe ((buf.drop k).take 4)
  rw [hl] at hb
  rw [wordBytesOf, wordAt, Config.wordBytes_eq, BitVec.toNat_ofNat, Nat.mod_eq_of_lt (by simpa using hlt), hb]

end Sys2Proof
end

