-- ==== Sys2Proof/Laws/Memory.lean ====
section
/-! SUPPORT. What reading and writing the bytes of data memory do, that every operation keeps the canonical form, and that
memories in that form with the same bytes are equal data. -/

namespace Sys2Proof.Machine.Memory

@[simp] theorem read_nil (a : Nat) : read [] a = Config.resetByte := rfl

theorem read_cons (k : Nat) (b : Byte) (m : Memory) (a : Nat) :
    read ((k, b) :: m) a = if k = a then b else read m a := rfl

/-! ### One byte -/

theorem read_clear (m : Memory) (a c : Nat) :
    (m.clear a).read c = if a = c then Config.resetByte else m.read c := by
  induction m with
  | nil => simp [clear]
  | cons e m ih =>
    obtain ⟨k, b⟩ := e
    by_cases hk : k = a
    · subst hk
      have h : clear ((k, b) :: m) k = clear m k := by simp [clear]
      rw [h, ih, read_cons]
      split <;> rfl
    · have h : clear ((k, b) :: m) a = (k, b) :: clear m a := by simp [clear, hk]
      rw [h, read_cons, read_cons, ih]
      split
      · rw [if_neg (by omega)]
      · rfl

theorem read_place (m : Memory) (a : Nat) (b : Byte) (c : Nat) (h : m.read a = Config.resetByte)
    (hn : ∀ e ∈ m, e.1 ≠ a) : (m.place a b).read c = if a = c then b else m.read c := by
  induction m with
  | nil => rfl
  | cons e m ih =>
    obtain ⟨k, d⟩ := e
    have hk : k ≠ a := hn (k, d) (by simp)
    have hm : ∀ e ∈ m, e.1 ≠ a := fun e he => hn e (List.mem_cons_of_mem _ he)
    rw [place]
    split
    · rfl
    · rw [read_cons, read_cons, ih (by simpa [read_cons, hk] using h) hm]
      split
      · rw [if_neg (by omega)]
      · rfl

theorem mem_clear {m : Memory} {a : Nat} {e : Host.Cell} (h : e ∈ m.clear a) : e ∈ m ∧ e.1 ≠ a := by
  simpa [clear] using h

/-- Reading after writing one byte: the byte written at its address, the old byte everywhere else. -/
theorem read_write (m : Memory) (a : Nat) (b : Byte) (c : Nat) :
    (m.write a b).read c = if a = c then b else m.read c := by
  rw [write]
  split
  · next hb => rw [read_clear, hb]
  · rw [read_place _ _ _ _ (by simp [read_clear]) (fun e he => (mem_clear he).2), read_clear]
    split <;> rfl

/-! ### Many bytes -/

@[simp] theorem readBytes_length (m : Memory) (a n : Nat) : (m.readBytes a n).length = n := by
  induction n generalizing a with
  | zero => rfl
  | succ n ih => simp [readBytes, ih]

theorem readBytes_congr {m m' : Memory} {a n : Nat} (h : ∀ c, a ≤ c → c < a + n → m.read c = m'.read c) :
    m.readBytes a n = m'.readBytes a n := by
  induction n generalizing a with
  | zero => rfl
  | succ n ih =>
    rw [readBytes, readBytes, h a (by omega) (by omega), ih fun c h1 h2 => h c (by omega) (by omega)]

theorem readBytes_getElem? (m : Memory) (a n k : Nat) (h : k < n) : (m.readBytes a n)[k]? = some (m.read (a + k)) := by
  induction n generalizing a k with
  | zero => omega
  | succ n ih =>
    cases k with
    | zero => simp [readBytes]
    | succ k =>
      rw [readBytes, List.getElem?_cons_succ, ih (a + 1) k (by omega)]
      congr 2
      omega

/-- Reading one byte after writing several: the byte written inside their range, the old byte outside it. -/
theorem read_writeBytes (m : Memory) (a : Nat) (bs : List Byte) (c : Nat) :
    (m.writeBytes a bs).read c = if a ≤ c ∧ c < a + bs.length then bs.getD (c - a) 0 else m.read c := by
  induction bs generalizing m a with
  | nil => simp [writeBytes]
  | cons b bs ih =>
    rw [writeBytes, ih, read_write, List.length_cons]
    by_cases h1 : a = c
    · subst h1
      rw [if_neg (by omega), if_pos rfl, if_pos (by omega), Nat.sub_self]
      rfl
    · by_cases h2 : a + 1 ≤ c ∧ c < a + 1 + bs.length
      · have h3 : c - a = (c - (a + 1)) + 1 := by omega
        rw [if_pos h2, if_pos (by omega), h3, List.getD_cons_succ]
      · rw [if_neg h2, if_neg h1, if_neg (by omega)]

theorem read_writeBytes_outside (m : Memory) (a : Nat) (bs : List Byte) (c : Nat) (h : c < a ∨ a + bs.length ≤ c) :
    (m.writeBytes a bs).read c = m.read c := by
  rw [read_writeBytes, if_neg (by omega)]

/-- Reading back all the bytes just written. -/
theorem readBytes_writeBytes (m : Memory) (a : Nat) (bs : List Byte) :
    (m.writeBytes a bs).readBytes a bs.length = bs := by
  induction bs generalizing m a with
  | nil => rfl
  | cons b bs ih =>
    rw [List.length_cons, readBytes, writeBytes, ih, read_writeBytes_outside _ _ _ _ (by omega), read_write, if_pos rfl]

/-! ### The canonical form -/

@[simp] theorem wf_nil : wf [] = true := rfl

theorem wf_cons {k : Nat} {b : Byte} {m : Memory} :
    wf ((k, b) :: m) = true ↔ b ≠ Config.resetByte ∧ (∀ e ∈ m, k < e.1) ∧ m.wf = true := by
  simp [wf, and_assoc]

theorem wf_clear {m : Memory} (h : m.wf = true) (a : Nat) : (m.clear a).wf = true := by
  induction m with
  | nil => rfl
  | cons e m ih =>
    obtain ⟨k, b⟩ := e
    rw [wf_cons] at h
    by_cases hk : k = a
    · have he : clear ((k, b) :: m) a = clear m a := by simp [clear, hk]
      rw [he]
      exact ih h.2.2
    · have he : clear ((k, b) :: m) a = (k, b) :: clear m a := by simp [clear, hk]
      rw [he, wf_cons]
      exact ⟨h.1, fun e he => h.2.1 e (mem_clear he).1, ih h.2.2⟩

theorem mem_place {m : Memory} {a : Nat} {b : Byte} {e : Host.Cell} (h : e ∈ m.place a b) : e = (a, b) ∨ e ∈ m := by
  induction m with
  | nil => simpa [place] using h
  | cons d m ih =>
    obtain ⟨k, c⟩ := d
    rw [place] at h
    split at h
    · simpa using h
    · rcases List.mem_cons.1 h with h | h
      · exact .inr (by simp [h])
      · exact (ih h).imp id (List.mem_cons_of_mem _)

theorem wf_place {m : Memory} (h : m.wf = true) {a : Nat} {b : Byte} (hb : b ≠ Config.resetByte) (hn : ∀ e ∈ m, e.1 ≠ a) :
    (m.place a b).wf = true := by
  induction m with
  | nil => simp [place, wf_cons, hb]
  | cons e m ih =>
    obtain ⟨k, c⟩ := e
    have h' := wf_cons.1 h
    have hk : k ≠ a := hn (k, c) (by simp)
    rw [place]
    split
    · next hlt =>
      rw [wf_cons]
      refine ⟨hb, fun e he => ?_, h⟩
      rcases List.mem_cons.1 he with rfl | he
      · exact hlt
      · have := h'.2.1 e he
        omega
    · rw [wf_cons]
      refine ⟨h'.1, fun e he => ?_, ih h'.2.2 fun e he => hn e (List.mem_cons_of_mem _ he)⟩
      rcases mem_place he with rfl | he
      · show k < a
        omega
      · exact h'.2.1 e he

/-- Writing a byte keeps the canonical form. -/
theorem wf_write {m : Memory} (h : m.wf = true) (a : Nat) (b : Byte) : (m.write a b).wf = true := by
  rw [write]
  split
  · exact wf_clear h a
  · next hb => exact wf_place (wf_clear h a) hb fun e he => (mem_clear he).2

/-- Writing bytes keeps the canonical form. -/
theorem wf_writeBytes {m : Memory} (h : m.wf = true) (a : Nat) (bs : List Byte) : (m.writeBytes a bs).wf = true := by
  induction bs generalizing m a with
  | nil => exact h
  | cons b bs ih => exact ih (wf_write h a b) (a + 1)

theorem mem_write {m : Memory} {a : Nat} {b : Byte} {e : Host.Cell} (h : e ∈ m.write a b) : e.1 = a ∨ e ∈ m := by
  rw [write] at h
  split at h
  · exact .inr (mem_clear h).1
  · rcases mem_place h with rfl | h
    · exact .inl rfl
    · exact .inr (mem_clear h).1

/-- Writing bytes lists no address outside their range that was not listed. -/
theorem mem_writeBytes {m : Memory} {a : Nat} {bs : List Byte} {e : Host.Cell} (h : e ∈ m.writeBytes a bs) :
    (a ≤ e.1 ∧ e.1 < a + bs.length) ∨ e ∈ m := by
  induction bs generalizing m a with
  | nil => exact .inr h
  | cons b bs ih =>
    rw [List.length_cons]
    rcases ih h with h | h
    · exact .inl (by omega)
    · rcases mem_write h with h | h
      · exact .inl (by omega)
      · exact .inr h

/-- An address below every listed one reads as the reset value. -/
theorem read_of_lt {m : Memory} {a : Nat} (h : ∀ e ∈ m, a < e.1) : m.read a = Config.resetByte := by
  induction m with
  | nil => rfl
  | cons e m ih =>
    obtain ⟨k, b⟩ := e
    have hk : a < k := h (k, b) (by simp)
    rw [read_cons, if_neg (by omega)]
    exact ih fun e he => h e (List.mem_cons_of_mem _ he)

/-- Memories in canonical form that hold the same bytes are the same data. -/
theorem eq_of_read_eq {m m' : Memory} (h : m.wf = true) (h' : m'.wf = true) (heq : ∀ a, m.read a = m'.read a) : m = m' := by
  induction m generalizing m' with
  | nil =>
    cases m' with
    | nil => rfl
    | cons e m' =>
      obtain ⟨k, b⟩ := e
      have := heq k
      rw [read_nil, read_cons, if_pos rfl] at this
      exact absurd this.symm (wf_cons.1 h').1
  | cons e m ih =>
    obtain ⟨k, b⟩ := e
    have hw := wf_cons.1 h
    cases m' with
    | nil =>
      have := heq k
      rw [read_nil, read_cons, if_pos rfl] at this
      exact absurd this hw.1
    | cons e' m' =>
      obtain ⟨k', b'⟩ := e'
      have hw' := wf_cons.1 h'
      have hkk : k = k' := by
        rcases lt_trichotomy k k' with hlt | heq' | hgt
        · have h1 := heq k
          rw [read_cons, if_pos rfl, read_of_lt] at h1
          · exact absurd h1 hw.1
          · intro e he
            rcases List.mem_cons.1 he with rfl | he
            · exact hlt
            · exact lt_trans hlt (hw'.2.1 e he)
        · exact heq'
        · have h1 := heq k'
          rw [read_cons (a := k'), read_cons k' b', if_pos rfl, if_neg (by omega), read_of_lt] at h1
          · exact absurd h1.symm hw'.1
          · intro e he
            exact lt_trans hgt (hw.2.1 e he)
      subst hkk
      have hb : b = b' := by simpa [read_cons] using heq k
      subst hb
      congr 1
      refine ih hw.2.2 hw'.2.2 fun a => ?_
      by_cases ha : k = a
      · subst ha
        rw [read_of_lt hw.2.1, read_of_lt hw'.2.1]
      · simpa [read_cons, ha] using heq a

end Sys2Proof.Machine.Memory
end

