-- ==== Sys2Proof/Laws/State.lean ====
section
/-! SUPPORT. One lemma per field of State per update of it, so that no proof unfolds a record update. -/

namespace Sys2Proof.Machine.State

/-! ### setAcc -/

@[simp] theorem setAcc_acc (s : State) (v : Word) : (s.setAcc v).acc = v := rfl
@[simp] theorem setAcc_regs (s : State) (v : Word) : (s.setAcc v).regs = s.regs := rfl
@[simp] theorem setAcc_pc (s : State) (v : Word) : (s.setAcc v).pc = s.pc := rfl
@[simp] theorem setAcc_sp (s : State) (v : Word) : (s.setAcc v).sp = s.sp := rfl
@[simp] theorem setAcc_zf (s : State) (v : Word) : (s.setAcc v).zf = s.zf := rfl
@[simp] theorem setAcc_cf (s : State) (v : Word) : (s.setAcc v).cf = s.cf := rfl
@[simp] theorem setAcc_status (s : State) (v : Word) : (s.setAcc v).status = s.status := rfl
@[simp] theorem setAcc_out (s : State) (v : Word) : (s.setAcc v).out = s.out := rfl
@[simp] theorem setAcc_mem (s : State) (v : Word) : (s.setAcc v).mem = s.mem := rfl
@[simp] theorem setAcc_memSize (s : State) (v : Word) : (s.setAcc v).memSize = s.memSize := rfl
@[simp] theorem setAcc_exe (s : State) (v : Word) : (s.setAcc v).exe = s.exe := rfl
@[simp] theorem setAcc_opc (s : State) (v : Word) : (s.setAcc v).opc = s.opc := rfl
@[simp] theorem setAcc_nreg (s : State) (v : Word) : (s.setAcc v).nreg = s.nreg := rfl

/-! ### setPc -/

@[simp] theorem setPc_acc (s : State) (v : Word) : (s.setPc v).acc = s.acc := rfl
@[simp] theorem setPc_regs (s : State) (v : Word) : (s.setPc v).regs = s.regs := rfl
@[simp] theorem setPc_pc (s : State) (v : Word) : (s.setPc v).pc = v := rfl
@[simp] theorem setPc_sp (s : State) (v : Word) : (s.setPc v).sp = s.sp := rfl
@[simp] theorem setPc_zf (s : State) (v : Word) : (s.setPc v).zf = s.zf := rfl
@[simp] theorem setPc_cf (s : State) (v : Word) : (s.setPc v).cf = s.cf := rfl
@[simp] theorem setPc_status (s : State) (v : Word) : (s.setPc v).status = s.status := rfl
@[simp] theorem setPc_out (s : State) (v : Word) : (s.setPc v).out = s.out := rfl
@[simp] theorem setPc_mem (s : State) (v : Word) : (s.setPc v).mem = s.mem := rfl
@[simp] theorem setPc_memSize (s : State) (v : Word) : (s.setPc v).memSize = s.memSize := rfl
@[simp] theorem setPc_exe (s : State) (v : Word) : (s.setPc v).exe = s.exe := rfl
@[simp] theorem setPc_opc (s : State) (v : Word) : (s.setPc v).opc = s.opc := rfl
@[simp] theorem setPc_nreg (s : State) (v : Word) : (s.setPc v).nreg = s.nreg := rfl

/-! ### setSp -/

@[simp] theorem setSp_acc (s : State) (v : Word) : (s.setSp v).acc = s.acc := rfl
@[simp] theorem setSp_regs (s : State) (v : Word) : (s.setSp v).regs = s.regs := rfl
@[simp] theorem setSp_pc (s : State) (v : Word) : (s.setSp v).pc = s.pc := rfl
@[simp] theorem setSp_sp (s : State) (v : Word) : (s.setSp v).sp = v := rfl
@[simp] theorem setSp_zf (s : State) (v : Word) : (s.setSp v).zf = s.zf := rfl
@[simp] theorem setSp_cf (s : State) (v : Word) : (s.setSp v).cf = s.cf := rfl
@[simp] theorem setSp_status (s : State) (v : Word) : (s.setSp v).status = s.status := rfl
@[simp] theorem setSp_out (s : State) (v : Word) : (s.setSp v).out = s.out := rfl
@[simp] theorem setSp_mem (s : State) (v : Word) : (s.setSp v).mem = s.mem := rfl
@[simp] theorem setSp_memSize (s : State) (v : Word) : (s.setSp v).memSize = s.memSize := rfl
@[simp] theorem setSp_exe (s : State) (v : Word) : (s.setSp v).exe = s.exe := rfl
@[simp] theorem setSp_opc (s : State) (v : Word) : (s.setSp v).opc = s.opc := rfl
@[simp] theorem setSp_nreg (s : State) (v : Word) : (s.setSp v).nreg = s.nreg := rfl

/-! ### setZf -/

@[simp] theorem setZf_acc (s : State) (b : Bool) : (s.setZf b).acc = s.acc := rfl
@[simp] theorem setZf_regs (s : State) (b : Bool) : (s.setZf b).regs = s.regs := rfl
@[simp] theorem setZf_pc (s : State) (b : Bool) : (s.setZf b).pc = s.pc := rfl
@[simp] theorem setZf_sp (s : State) (b : Bool) : (s.setZf b).sp = s.sp := rfl
@[simp] theorem setZf_zf (s : State) (b : Bool) : (s.setZf b).zf = b := rfl
@[simp] theorem setZf_cf (s : State) (b : Bool) : (s.setZf b).cf = s.cf := rfl
@[simp] theorem setZf_status (s : State) (b : Bool) : (s.setZf b).status = s.status := rfl
@[simp] theorem setZf_out (s : State) (b : Bool) : (s.setZf b).out = s.out := rfl
@[simp] theorem setZf_mem (s : State) (b : Bool) : (s.setZf b).mem = s.mem := rfl
@[simp] theorem setZf_memSize (s : State) (b : Bool) : (s.setZf b).memSize = s.memSize := rfl
@[simp] theorem setZf_exe (s : State) (b : Bool) : (s.setZf b).exe = s.exe := rfl
@[simp] theorem setZf_opc (s : State) (b : Bool) : (s.setZf b).opc = s.opc := rfl
@[simp] theorem setZf_nreg (s : State) (b : Bool) : (s.setZf b).nreg = s.nreg := rfl

/-! ### setCf -/

@[simp] theorem setCf_acc (s : State) (c : Comparison) : (s.setCf c).acc = s.acc := rfl
@[simp] theorem setCf_regs (s : State) (c : Comparison) : (s.setCf c).regs = s.regs := rfl
@[simp] theorem setCf_pc (s : State) (c : Comparison) : (s.setCf c).pc = s.pc := rfl
@[simp] theorem setCf_sp (s : State) (c : Comparison) : (s.setCf c).sp = s.sp := rfl
@[simp] theorem setCf_zf (s : State) (c : Comparison) : (s.setCf c).zf = s.zf := rfl
@[simp] theorem setCf_cf (s : State) (c : Comparison) : (s.setCf c).cf = c := rfl
@[simp] theorem setCf_status (s : State) (c : Comparison) : (s.setCf c).status = s.status := rfl
@[simp] theorem setCf_out (s : State) (c : Comparison) : (s.setCf c).out = s.out := rfl
@[simp] theorem setCf_mem (s : State) (c : Comparison) : (s.setCf c).mem = s.mem := rfl
@[simp] theorem setCf_memSize (s : State) (c : Comparison) : (s.setCf c).memSize = s.memSize := rfl
@[simp] theorem setCf_exe (s : State) (c : Comparison) : (s.setCf c).exe = s.exe := rfl
@[simp] theorem setCf_opc (s : State) (c : Comparison) : (s.setCf c).opc = s.opc := rfl
@[simp] theorem setCf_nreg (s : State) (c : Comparison) : (s.setCf c).nreg = s.nreg := rfl

/-! ### setStatus -/

@[simp] theorem setStatus_acc (s : State) (v : Status) : (s.setStatus v).acc = s.acc := rfl
@[simp] theorem setStatus_regs (s : State) (v : Status) : (s.setStatus v).regs = s.regs := rfl
@[simp] theorem setStatus_pc (s : State) (v : Status) : (s.setStatus v).pc = s.pc := rfl
@[simp] theorem setStatus_sp (s : State) (v : Status) : (s.setStatus v).sp = s.sp := rfl
@[simp] theorem setStatus_zf (s : State) (v : Status) : (s.setStatus v).zf = s.zf := rfl
@[simp] theorem setStatus_cf (s : State) (v : Status) : (s.setStatus v).cf = s.cf := rfl
@[simp] theorem setStatus_status (s : State) (v : Status) : (s.setStatus v).status = v := rfl
@[simp] theorem setStatus_out (s : State) (v : Status) : (s.setStatus v).out = s.out := rfl
@[simp] theorem setStatus_mem (s : State) (v : Status) : (s.setStatus v).mem = s.mem := rfl
@[simp] theorem setStatus_memSize (s : State) (v : Status) : (s.setStatus v).memSize = s.memSize := rfl
@[simp] theorem setStatus_exe (s : State) (v : Status) : (s.setStatus v).exe = s.exe := rfl
@[simp] theorem setStatus_opc (s : State) (v : Status) : (s.setStatus v).opc = s.opc := rfl
@[simp] theorem setStatus_nreg (s : State) (v : Status) : (s.setStatus v).nreg = s.nreg := rfl

/-! ### setMem -/

@[simp] theorem setMem_acc (s : State) (m : Memory) : (s.setMem m).acc = s.acc := rfl
@[simp] theorem setMem_regs (s : State) (m : Memory) : (s.setMem m).regs = s.regs := rfl
@[simp] theorem setMem_pc (s : State) (m : Memory) : (s.setMem m).pc = s.pc := rfl
@[simp] theorem setMem_sp (s : State) (m : Memory) : (s.setMem m).sp = s.sp := rfl
@[simp] theorem setMem_zf (s : State) (m : Memory) : (s.setMem m).zf = s.zf := rfl
@[simp] theorem setMem_cf (s : State) (m : Memory) : (s.setMem m).cf = s.cf := rfl
@[simp] theorem setMem_status (s : State) (m : Memory) : (s.setMem m).status = s.status := rfl
@[simp] theorem setMem_out (s : State) (m : Memory) : (s.setMem m).out = s.out := rfl
@[simp] theorem setMem_mem (s : State) (m : Memory) : (s.setMem m).mem = m := rfl
@[simp] theorem setMem_memSize (s : State) (m : Memory) : (s.setMem m).memSize = s.memSize := rfl
@[simp] theorem setMem_exe (s : State) (m : Memory) : (s.setMem m).exe = s.exe := rfl
@[simp] theorem setMem_opc (s : State) (m : Memory) : (s.setMem m).opc = s.opc := rfl
@[simp] theorem setMem_nreg (s : State) (m : Memory) : (s.setMem m).nreg = s.nreg := rfl

/-! ### setReg -/

@[simp] theorem setReg_acc (s : State) (r : RegIdx) (v : Word) : (s.setReg r v).acc = s.acc := rfl
@[simp] theorem setReg_regs (s : State) (r : RegIdx) (v : Word) : (s.setReg r v).regs = s.regs.set r.toNat v := rfl
@[simp] theorem setReg_pc (s : State) (r : RegIdx) (v : Word) : (s.setReg r v).pc = s.pc := rfl
@[simp] theorem setReg_sp (s : State) (r : RegIdx) (v : Word) : (s.setReg r v).sp = s.sp := rfl
@[simp] theorem setReg_zf (s : State) (r : RegIdx) (v : Word) : (s.setReg r v).zf = s.zf := rfl
@[simp] theorem setReg_cf (s : State) (r : RegIdx) (v : Word) : (s.setReg r v).cf = s.cf := rfl
@[simp] theorem setReg_status (s : State) (r : RegIdx) (v : Word) : (s.setReg r v).status = s.status := rfl
@[simp] theorem setReg_out (s : State) (r : RegIdx) (v : Word) : (s.setReg r v).out = s.out := rfl
@[simp] theorem setReg_mem (s : State) (r : RegIdx) (v : Word) : (s.setReg r v).mem = s.mem := rfl
@[simp] theorem setReg_memSize (s : State) (r : RegIdx) (v : Word) : (s.setReg r v).memSize = s.memSize := rfl
@[simp] theorem setReg_exe (s : State) (r : RegIdx) (v : Word) : (s.setReg r v).exe = s.exe := rfl
@[simp] theorem setReg_opc (s : State) (r : RegIdx) (v : Word) : (s.setReg r v).opc = s.opc := rfl
@[simp] theorem setReg_nreg (s : State) (r : RegIdx) (v : Word) : (s.setReg r v).nreg = s.nreg := by simp [nreg]

/-! ### emit -/

@[simp] theorem emit_acc (s : State) (bs : List Byte) : (s.emit bs).acc = s.acc := rfl
@[simp] theorem emit_regs (s : State) (bs : List Byte) : (s.emit bs).regs = s.regs := rfl
@[simp] theorem emit_pc (s : State) (bs : List Byte) : (s.emit bs).pc = s.pc := rfl
@[simp] theorem emit_sp (s : State) (bs : List Byte) : (s.emit bs).sp = s.sp := rfl
@[simp] theorem emit_zf (s : State) (bs : List Byte) : (s.emit bs).zf = s.zf := rfl
@[simp] theorem emit_cf (s : State) (bs : List Byte) : (s.emit bs).cf = s.cf := rfl
@[simp] theorem emit_status (s : State) (bs : List Byte) : (s.emit bs).status = s.status := rfl
@[simp] theorem emit_out (s : State) (bs : List Byte) : (s.emit bs).out = s.out ++ bs := rfl
@[simp] theorem emit_mem (s : State) (bs : List Byte) : (s.emit bs).mem = s.mem := rfl
@[simp] theorem emit_memSize (s : State) (bs : List Byte) : (s.emit bs).memSize = s.memSize := rfl
@[simp] theorem emit_exe (s : State) (bs : List Byte) : (s.emit bs).exe = s.exe := rfl
@[simp] theorem emit_opc (s : State) (bs : List Byte) : (s.emit bs).opc = s.opc := rfl
@[simp] theorem emit_nreg (s : State) (bs : List Byte) : (s.emit bs).nreg = s.nreg := rfl

/-! ### raise -/

@[simp] theorem raise_acc (s : State) (c : Failure) : (s.raise c).acc = s.acc := rfl
@[simp] theorem raise_regs (s : State) (c : Failure) : (s.raise c).regs = s.regs := rfl
@[simp] theorem raise_pc (s : State) (c : Failure) : (s.raise c).pc = s.pc := rfl
@[simp] theorem raise_sp (s : State) (c : Failure) : (s.raise c).sp = s.sp := rfl
@[simp] theorem raise_zf (s : State) (c : Failure) : (s.raise c).zf = s.zf := rfl
@[simp] theorem raise_cf (s : State) (c : Failure) : (s.raise c).cf = s.cf := rfl
@[simp] theorem raise_status (s : State) (c : Failure) : (s.raise c).status = .failed c := rfl
@[simp] theorem raise_out (s : State) (c : Failure) : (s.raise c).out = s.out := rfl
@[simp] theorem raise_mem (s : State) (c : Failure) : (s.raise c).mem = s.mem := rfl
@[simp] theorem raise_memSize (s : State) (c : Failure) : (s.raise c).memSize = s.memSize := rfl
@[simp] theorem raise_exe (s : State) (c : Failure) : (s.raise c).exe = s.exe := rfl
@[simp] theorem raise_opc (s : State) (c : Failure) : (s.raise c).opc = s.opc := rfl
@[simp] theorem raise_nreg (s : State) (c : Failure) : (s.raise c).nreg = s.nreg := rfl

/-! ### advance -/

@[simp] theorem advance_acc (s : State) (i : Instr) : (s.advance i).acc = s.acc := rfl
@[simp] theorem advance_regs (s : State) (i : Instr) : (s.advance i).regs = s.regs := rfl
@[simp] theorem advance_pc (s : State) (i : Instr) : (s.advance i).pc = s.pc + BitVec.ofNat 32 i.size := rfl
@[simp] theorem advance_sp (s : State) (i : Instr) : (s.advance i).sp = s.sp := rfl
@[simp] theorem advance_zf (s : State) (i : Instr) : (s.advance i).zf = s.zf := rfl
@[simp] theorem advance_cf (s : State) (i : Instr) : (s.advance i).cf = s.cf := rfl
@[simp] theorem advance_status (s : State) (i : Instr) : (s.advance i).status = s.status := rfl
@[simp] theorem advance_out (s : State) (i : Instr) : (s.advance i).out = s.out := rfl
@[simp] theorem advance_mem (s : State) (i : Instr) : (s.advance i).mem = s.mem := rfl
@[simp] theorem advance_memSize (s : State) (i : Instr) : (s.advance i).memSize = s.memSize := rfl
@[simp] theorem advance_exe (s : State) (i : Instr) : (s.advance i).exe = s.exe := rfl
@[simp] theorem advance_opc (s : State) (i : Instr) : (s.advance i).opc = s.opc := rfl
@[simp] theorem advance_nreg (s : State) (i : Instr) : (s.advance i).nreg = s.nreg := rfl

/-! ### placeAtPc -/

@[simp] theorem placeAtPc_acc (s : State) (bs : List Byte) : (s.placeAtPc bs).acc = s.acc := rfl
@[simp] theorem placeAtPc_regs (s : State) (bs : List Byte) : (s.placeAtPc bs).regs = s.regs := rfl
@[simp] theorem placeAtPc_pc (s : State) (bs : List Byte) : (s.placeAtPc bs).pc = s.pc := rfl
@[simp] theorem placeAtPc_sp (s : State) (bs : List Byte) : (s.placeAtPc bs).sp = s.sp := rfl
@[simp] theorem placeAtPc_zf (s : State) (bs : List Byte) : (s.placeAtPc bs).zf = s.zf := rfl
@[simp] theorem placeAtPc_cf (s : State) (bs : List Byte) : (s.placeAtPc bs).cf = s.cf := rfl
@[simp] theorem placeAtPc_status (s : State) (bs : List Byte) : (s.placeAtPc bs).status = .running := rfl
@[simp] theorem placeAtPc_out (s : State) (bs : List Byte) : (s.placeAtPc bs).out = s.out := rfl
@[simp] theorem placeAtPc_mem (s : State) (bs : List Byte) : (s.placeAtPc bs).mem = s.mem := rfl
@[simp] theorem placeAtPc_memSize (s : State) (bs : List Byte) : (s.placeAtPc bs).memSize = s.memSize := rfl
@[simp] theorem placeAtPc_exe (s : State) (bs : List Byte) : (s.placeAtPc bs).exe = s.exeWithAtPc bs := rfl
@[simp] theorem placeAtPc_opc (s : State) (bs : List Byte) : (s.placeAtPc bs).opc = s.opc := rfl
@[simp] theorem placeAtPc_nreg (s : State) (bs : List Byte) : (s.placeAtPc bs).nreg = s.nreg := rfl

/-! ### Construction -/

@[simp] theorem construct_acc (e : List Byte) (m : Word) (n : Nat) (c : Comparison) (o : OpcodeMap) :
    (construct e m n c o).acc = Config.resetAcc := rfl
@[simp] theorem construct_regs (e : List Byte) (m : Word) (n : Nat) (c : Comparison) (o : OpcodeMap) :
    (construct e m n c o).regs = List.replicate n Config.resetSideReg := rfl
@[simp] theorem construct_pc (e : List Byte) (m : Word) (n : Nat) (c : Comparison) (o : OpcodeMap) :
    (construct e m n c o).pc = Config.resetPc := rfl
@[simp] theorem construct_sp (e : List Byte) (m : Word) (n : Nat) (c : Comparison) (o : OpcodeMap) :
    (construct e m n c o).sp = m := rfl
@[simp] theorem construct_zf (e : List Byte) (m : Word) (n : Nat) (c : Comparison) (o : OpcodeMap) :
    (construct e m n c o).zf = Config.resetZf := rfl
@[simp] theorem construct_cf (e : List Byte) (m : Word) (n : Nat) (c : Comparison) (o : OpcodeMap) :
    (construct e m n c o).cf = c := rfl
@[simp] theorem construct_status (e : List Byte) (m : Word) (n : Nat) (c : Comparison) (o : OpcodeMap) :
    (construct e m n c o).status = .running := rfl
@[simp] theorem construct_out (e : List Byte) (m : Word) (n : Nat) (c : Comparison) (o : OpcodeMap) :
    (construct e m n c o).out = [] := rfl
@[simp] theorem construct_mem (e : List Byte) (m : Word) (n : Nat) (c : Comparison) (o : OpcodeMap) :
    (construct e m n c o).mem = [] := rfl
@[simp] theorem construct_memSize (e : List Byte) (m : Word) (n : Nat) (c : Comparison) (o : OpcodeMap) :
    (construct e m n c o).memSize = m := rfl
@[simp] theorem construct_exe (e : List Byte) (m : Word) (n : Nat) (c : Comparison) (o : OpcodeMap) :
    (construct e m n c o).exe = e := rfl
@[simp] theorem construct_opc (e : List Byte) (m : Word) (n : Nat) (c : Comparison) (o : OpcodeMap) :
    (construct e m n c o).opc = o := rfl
@[simp] theorem construct_nreg (e : List Byte) (m : Word) (n : Nat) (c : Comparison) (o : OpcodeMap) :
    (construct e m n c o).nreg = n := by simp [nreg]

end Sys2Proof.Machine.State
end

