-- ==== Sys2Proof/Laws/Ops.lean ====
section
/-! SUPPORT. One lemma per shared operation: everything it can answer. -/

namespace Sys2Proof.Machine

/-! ### Data bytes -/

@[simp] theorem splitData_length (n v : Nat) : (splitData n v).length = n := by simp [splitData]

/-- Reading the bytes an access stored gives the low `n` bytes of the value. -/
theorem composeData_splitData (n v : Nat) : composeData (splitData n v) = v % 256 ^ n := unbe_be n v

/-- What an access of four bytes reads: the byte at the lowest address on top. -/
theorem composeData_four (m : Memory) (a : Nat) : BitVec.ofNat 32 (composeData (m.readBytes a 4)) =
    m.read a ++ m.read (a + 1) ++ m.read (a + 2) ++ m.read (a + 3) := ofNat_unbe_four _ _ _ _

/-- What an access of two bytes reads, zero-extended. -/
theorem composeData_two (m : Memory) (a : Nat) : BitVec.ofNat 32 (composeData (m.readBytes a 2)) =
    0#16 ++ m.read a ++ m.read (a + 1) := ofNat_unbe_two _ _

/-- What an access of one byte reads, zero-extended. -/
theorem composeData_one (m : Memory) (a : Nat) : BitVec.ofNat 32 (composeData (m.readBytes a 1)) = 0#24 ++ m.read a :=
  ofNat_unbe_one _

/-- The bytes an access of four bytes stores. -/
theorem splitData_four (v : Word) :
    splitData 4 v.toNat = [v.extractLsb' 24 8, v.extractLsb' 16 8, v.extractLsb' 8 8, v.extractLsb' 0 8] := be_four v

/-- The bytes an access of two bytes stores. -/
theorem splitData_two (v : Word) : splitData 2 v.toNat = [v.extractLsb' 8 8, v.extractLsb' 0 8] := be_two v

/-- The byte an access of one byte stores. -/
theorem splitData_one (v : Word) : splitData 1 v.toNat = [v.extractLsb' 0 8] := be_one v

theorem composeData_lt (bs : List Byte) : composeData bs < 256 ^ bs.length := unbe_lt bs

namespace State

/-! ### orRaise -/

@[simp] theorem orRaise_ok {α : Type} (s : State) (v : α) (k : α → Host.Outcome State Fault Refusal) :
    s.orRaise (.ok v) k = k v := rfl

@[simp] theorem orRaise_error {α : Type} (s : State) (c : Failure) (k : α → Host.Outcome State Fault Refusal) :
    s.orRaise (.error c) k = .next (s.raise c) := rfl

/-- What `orRaise` answers: the failure raised, or what the continuation answers. -/
theorem orRaise_cases {α : Type} {s : State} {r : Except Failure α} {k : α → Host.Outcome State Fault Refusal}
    {o : Host.Outcome State Fault Refusal} (h : s.orRaise r k = o) :
    (∃ c, r = .error c ∧ o = .next (s.raise c)) ∨ ∃ v, r = .ok v ∧ k v = o := by
  cases r with
  | error c => exact .inl ⟨c, rfl, h.symm⟩
  | ok v => exact .inr ⟨v, rfl, h⟩

/-! ### Registers -/

theorem chkReg_ok {s : State} {r : RegIdx} (h : r.toNat < s.nreg) : s.chkReg r = .ok () := by simp [chkReg, h]

theorem chkReg_error {s : State} {r : RegIdx} (h : s.nreg ≤ r.toNat) : s.chkReg r = .error (.registerOutOfRange r) := by
  simp [chkReg, Nat.not_lt.2 h]

theorem readReg_ok {s : State} {r : RegIdx} {v : Word} (h : s.regs[r.toNat]? = some v) : s.readReg r = .ok v := by
  have hlt : r.toNat < s.nreg := (List.getElem?_eq_some_iff.1 h).1
  simp [readReg, chkReg_ok hlt, List.getD, h]

theorem readReg_error {s : State} {r : RegIdx} (h : s.nreg ≤ r.toNat) :
    s.readReg r = .error (.registerOutOfRange r) := by
  simp [readReg, chkReg_error h]

/-- Reading a register answers its content, or fails when there is no such register. -/
theorem readReg_cases {s : State} {r : RegIdx} {x : Except Failure Word} (h : s.readReg r = x) :
    (∃ v, s.regs[r.toNat]? = some v ∧ x = .ok v) ∨ (s.nreg ≤ r.toNat ∧ x = .error (.registerOutOfRange r)) := by
  by_cases hlt : r.toNat < s.nreg
  · obtain ⟨v, hv⟩ : ∃ v, s.regs[r.toNat]? = some v := ⟨_, List.getElem?_eq_getElem hlt⟩
    exact .inl ⟨v, hv, by rw [← h, readReg_ok hv]⟩
  · exact .inr ⟨Nat.not_lt.1 hlt, by rw [← h, readReg_error (Nat.not_lt.1 hlt)]⟩

theorem readReg_ok_iff {s : State} {r : RegIdx} {v : Word} : s.readReg r = .ok v ↔ s.regs[r.toNat]? = some v := by
  refine ⟨fun h => ?_, readReg_ok⟩
  rcases readReg_cases h with ⟨w, hw, hx⟩ | ⟨_, hx⟩
  · injection hx with hx; rw [hw, hx]
  · cases hx

theorem writeReg_ok {s : State} {r : RegIdx} (v : Word) (h : r.toNat < s.nreg) : s.writeReg r v = .ok (s.setReg r v) := by
  simp [writeReg, chkReg_ok h]

theorem writeReg_error {s : State} {r : RegIdx} (v : Word) (h : s.nreg ≤ r.toNat) :
    s.writeReg r v = .error (.registerOutOfRange r) := by
  simp [writeReg, chkReg_error h]

theorem writeReg_cases {s : State} {r : RegIdx} {v : Word} {x : Except Failure State} (h : s.writeReg r v = x) :
    (r.toNat < s.nreg ∧ x = .ok (s.setReg r v)) ∨ (s.nreg ≤ r.toNat ∧ x = .error (.registerOutOfRange r)) := by
  by_cases hlt : r.toNat < s.nreg
  · exact .inl ⟨hlt, by rw [← h, writeReg_ok v hlt]⟩
  · exact .inr ⟨Nat.not_lt.1 hlt, by rw [← h, writeReg_error v (Nat.not_lt.1 hlt)]⟩

theorem chkReg_cases {s : State} {r : RegIdx} {x : Except Failure Unit} (h : s.chkReg r = x) :
    (r.toNat < s.nreg ∧ x = .ok ()) ∨ (s.nreg ≤ r.toNat ∧ x = .error (.registerOutOfRange r)) := by
  by_cases hlt : r.toNat < s.nreg
  · exact .inl ⟨hlt, by rw [← h, chkReg_ok hlt]⟩
  · exact .inr ⟨Nat.not_lt.1 hlt, by rw [← h, chkReg_error (Nat.not_lt.1 hlt)]⟩

/-! ### Memory -/

theorem memRead_ok {s : State} {a : Word} {n : Nat} (h : a.toNat + n ≤ s.memSize.toNat) :
    s.memRead a n = .ok (BitVec.ofNat 32 (composeData (s.mem.readBytes a.toNat n))) := by
  simp [memRead, inMem, h]

theorem memRead_error {s : State} {a : Word} {n : Nat} (h : s.memSize.toNat < a.toNat + n) :
    s.memRead a n = .error (.memoryOutOfBounds a) := by
  simp [memRead, inMem, Nat.not_le.2 h]

theorem memRead_cases {s : State} {a : Word} {n : Nat} {x : Except Failure Word} (h : s.memRead a n = x) :
    (a.toNat + n ≤ s.memSize.toNat ∧ x = .ok (BitVec.ofNat 32 (composeData (s.mem.readBytes a.toNat n)))) ∨
      (s.memSize.toNat < a.toNat + n ∧ x = .error (.memoryOutOfBounds a)) := by
  by_cases hle : a.toNat + n ≤ s.memSize.toNat
  · exact .inl ⟨hle, by rw [← h, memRead_ok hle]⟩
  · exact .inr ⟨Nat.not_le.1 hle, by rw [← h, memRead_error (Nat.not_le.1 hle)]⟩

theorem memWrite_ok {s : State} {a : Word} {n : Nat} (v : Word) (h : a.toNat + n ≤ s.memSize.toNat) :
    s.memWrite a n v = .ok (s.setMem (s.mem.writeBytes a.toNat (splitData n v.toNat))) := by
  simp [memWrite, inMem, h]

theorem memWrite_error {s : State} {a : Word} {n : Nat} (v : Word) (h : s.memSize.toNat < a.toNat + n) :
    s.memWrite a n v = .error (.memoryOutOfBounds a) := by
  simp [memWrite, inMem, Nat.not_le.2 h]

theorem memWrite_cases {s : State} {a : Word} {n : Nat} {v : Word} {x : Except Failure State}
    (h : s.memWrite a n v = x) :
    (a.toNat + n ≤ s.memSize.toNat ∧ x = .ok (s.setMem (s.mem.writeBytes a.toNat (splitData n v.toNat)))) ∨
      (s.memSize.toNat < a.toNat + n ∧ x = .error (.memoryOutOfBounds a)) := by
  by_cases hle : a.toNat + n ≤ s.memSize.toNat
  · exact .inl ⟨hle, by rw [← h, memWrite_ok v hle]⟩
  · exact .inr ⟨Nat.not_le.1 hle, by rw [← h, memWrite_error v (Nat.not_le.1 hle)]⟩

theorem exeRead_ok {s : State} {a : Word} {n : Nat} (h : a.toNat + n ≤ s.exe.length) :
    s.exeRead a n = .ok ((s.exe.drop a.toNat).take n) := by
  simp [exeRead, inExe, h]

theorem exeRead_error {s : State} {a : Word} {n : Nat} (h : s.exe.length < a.toNat + n) :
    s.exeRead a n = .error (.programOutOfBounds a) := by
  simp [exeRead, inExe, Nat.not_le.2 h]

theorem exeRead_cases {s : State} {a : Word} {n : Nat} {x : Except Failure (List Byte)} (h : s.exeRead a n = x) :
    (a.toNat + n ≤ s.exe.length ∧ x = .ok ((s.exe.drop a.toNat).take n)) ∨
      (s.exe.length < a.toNat + n ∧ x = .error (.programOutOfBounds a)) := by
  by_cases hle : a.toNat + n ≤ s.exe.length
  · exact .inl ⟨hle, by rw [← h, exeRead_ok hle]⟩
  · exact .inr ⟨Nat.not_le.1 hle, by rw [← h, exeRead_error (Nat.not_le.1 hle)]⟩

/-! ### The stack -/

/-- The address a push stores at, as a number. -/
theorem pushAddr_toNat {s : State} (h : 4 ≤ s.sp.toNat) : (s.sp - 4#32).toNat = s.sp.toNat - 4 := by
  rw [BitVec.toNat_sub_of_le (by simpa [BitVec.le_def] using h)]
  rfl

/-- The state a push that succeeds leaves. -/
def pushed (s : State) (v : Word) : State :=
  (s.setMem (s.mem.writeBytes (s.sp - 4#32).toNat (splitData 4 v.toNat))).setSp (s.sp - 4#32)

theorem push_ok {s : State} (v : Word) (h4 : 4 ≤ s.sp.toNat) (h : s.sp.toNat ≤ s.memSize.toNat) :
    s.push v = .ok (s.pushed v) := by
  have ha := pushAddr_toNat h4
  have hw : s.memWrite (s.sp - 4#32) 4 v = _ := memWrite_ok v (by omega)
  rw [push, if_neg (by simpa using h4)]
  simp only [Config.wordBytes_eq, hw]
  rfl

theorem push_overflow {s : State} (v : Word) (h : s.sp.toNat < 4) : s.push v = .error .stackOverflow := by
  simp [push, h]

theorem push_outOfBounds {s : State} (v : Word) (h4 : 4 ≤ s.sp.toNat) (h : s.memSize.toNat < s.sp.toNat) :
    s.push v = .error (.memoryOutOfBounds (s.sp - 4#32)) := by
  have ha := pushAddr_toNat h4
  have hw : s.memWrite (s.sp - 4#32) 4 v = _ := memWrite_error v (by omega)
  rw [push, if_neg (by simpa using h4)]
  simp only [Config.wordBytes_eq, hw]

theorem push_cases {s : State} {v : Word} {x : Except Failure State} (h : s.push v = x) :
    (4 ≤ s.sp.toNat ∧ s.sp.toNat ≤ s.memSize.toNat ∧ x = .ok (s.pushed v)) ∨
    (s.sp.toNat < 4 ∧ x = .error .stackOverflow) ∨
    (4 ≤ s.sp.toNat ∧ s.memSize.toNat < s.sp.toNat ∧ x = .error (.memoryOutOfBounds (s.sp - 4#32))) := by
  by_cases h4 : s.sp.toNat < 4
  · exact .inr (.inl ⟨h4, by rw [← h, push_overflow v h4]⟩)
  · have h4 := Nat.not_lt.1 h4
    by_cases hm : s.sp.toNat ≤ s.memSize.toNat
    · exact .inl ⟨h4, hm, by rw [← h, push_ok v h4 hm]⟩
    · exact .inr (.inr ⟨h4, Nat.not_le.1 hm, by rw [← h, push_outOfBounds v h4 (Nat.not_le.1 hm)]⟩)

theorem pop_ok {s : State} (h : s.sp.toNat + 4 ≤ s.memSize.toNat) :
    s.pop = .ok (BitVec.ofNat 32 (composeData (s.mem.readBytes s.sp.toNat 4)), s.setSp (s.sp + 4#32)) := by
  simp [pop, inMem, h]

theorem pop_error {s : State} (h : s.memSize.toNat < s.sp.toNat + 4) : s.pop = .error .stackUnderflow := by
  simp [pop, inMem, Nat.not_le.2 h]

theorem pop_cases {s : State} {x : Except Failure (Word × State)} (h : s.pop = x) :
    (s.sp.toNat + 4 ≤ s.memSize.toNat ∧
      x = .ok (BitVec.ofNat 32 (composeData (s.mem.readBytes s.sp.toNat 4)), s.setSp (s.sp + 4#32))) ∨
    (s.memSize.toNat < s.sp.toNat + 4 ∧ x = .error .stackUnderflow) := by
  by_cases hm : s.sp.toNat + 4 ≤ s.memSize.toNat
  · exact .inl ⟨hm, by rw [← h, pop_ok hm]⟩
  · exact .inr ⟨Nat.not_le.1 hm, by rw [← h, pop_error (Nat.not_le.1 hm)]⟩

/-! ### Shapes of instructions -/

theorem effAddr_absolute (a : Word) (s : State) : (AddrMode.absolute a).effAddr s = .ok a := rfl

theorem effAddr_indirect (r : RegIdx) (s : State) : (AddrMode.indirect r).effAddr s = s.readReg r := rfl

theorem loadAcc_ok {s : State} {mode : AddrMode} {n : Nat} {a : Word} (ha : mode.effAddr s = .ok a)
    (h : a.toNat + n ≤ s.memSize.toNat) :
    s.loadAcc mode n = .next (s.setAcc (BitVec.ofNat 32 (composeData (s.mem.readBytes a.toNat n)))) := by
  simp [loadAcc, ha, memRead_ok h]

theorem loadAcc_error {s : State} {mode : AddrMode} {n : Nat} {a : Word} (ha : mode.effAddr s = .ok a)
    (h : s.memSize.toNat < a.toNat + n) : s.loadAcc mode n = .next (s.raise (.memoryOutOfBounds a)) := by
  simp [loadAcc, ha, memRead_error h]

theorem storeAcc_ok {s : State} {mode : AddrMode} {n : Nat} {a : Word} (ha : mode.effAddr s = .ok a)
    (h : a.toNat + n ≤ s.memSize.toNat) :
    s.storeAcc mode n = .next (s.setMem (s.mem.writeBytes a.toNat (splitData n s.acc.toNat))) := by
  simp [storeAcc, ha, memWrite_ok s.acc h]

theorem storeAcc_error {s : State} {mode : AddrMode} {n : Nat} {a : Word} (ha : mode.effAddr s = .ok a)
    (h : s.memSize.toNat < a.toNat + n) : s.storeAcc mode n = .next (s.raise (.memoryOutOfBounds a)) := by
  simp [storeAcc, ha, memWrite_error s.acc h]

end State

/-! ### Strings -/

/-- The scan finds the string when the first zero byte is among the bytes it may look at. -/
theorem Memory.untilNul_some {m : Memory} {n a k : Nat} (hk : k < n) (h0 : m.read (a + k) = 0)
    (hn : ∀ j, j < k → m.read (a + j) ≠ 0) : m.untilNul n a = some (m.readBytes a k) := by
  induction n generalizing a k with
  | zero => omega
  | succ n ih =>
    cases k with
    | zero => simpa [untilNul, readBytes] using h0
    | succ k =>
      have h1 : m.read a ≠ 0 := hn 0 (by omega)
      have h2 := ih (a := a + 1) (k := k) (by omega) (by rw [← h0]; congr 1; omega)
        (fun j hj => by have := hn (j + 1) (by omega); rwa [show a + (j + 1) = a + 1 + j by omega] at this)
      rw [untilNul, if_neg h1, h2, readBytes, Option.map_some]

/-- The scan finds nothing when none of the bytes it may look at is zero. -/
theorem Memory.untilNul_none {m : Memory} {n a : Nat} (hn : ∀ j, j < n → m.read (a + j) ≠ 0) : m.untilNul n a = none := by
  induction n generalizing a with
  | zero => rfl
  | succ n ih =>
    have h1 : m.read a ≠ 0 := hn 0 (by omega)
    have h2 := ih (a := a + 1)
      (fun j hj => by have := hn (j + 1) (by omega); rwa [show a + (j + 1) = a + 1 + j by omega] at this)
    rw [untilNul, if_neg h1, h2, Option.map_none]

end Sys2Proof.Machine
end

