-- ==== Sys2Proof/Laws/Exec.lean ====
section
/-! SUPPORT. What the execute phase and a step can do, said once: `exec_cases` and `step_cases`. Later proofs cite these and do not
unfold `exec` or `step`. -/

namespace Sys2Proof.Machine

/-- A load of `n` bytes into `acc` that succeeds. -/
def LoadEffect (mode : AddrMode) (n : Nat) (s t : State) : Prop :=
  ∃ a : Word, mode.effAddr s = .ok a ∧ a.toNat + n ≤ s.memSize.toNat ∧
    t = s.setAcc (BitVec.ofNat 32 (composeData (s.mem.readBytes a.toNat n)))

/-- A store of the low `n` bytes of `acc` that succeeds. -/
def StoreEffect (mode : AddrMode) (n : Nat) (s t : State) : Prop :=
  ∃ a : Word, mode.effAddr s = .ok a ∧ a.toNat + n ≤ s.memSize.toNat ∧
    t = s.setMem (s.mem.writeBytes a.toNat (splitData n s.acc.toNat))

/-- A push of `v` that succeeds leaves `t`. -/
def PushEffect (v : Word) (s t : State) : Prop :=
  4 ≤ s.sp.toNat ∧ s.sp.toNat ≤ s.memSize.toNat ∧ t = s.pushed v

/-- The word a pop takes. -/
def State.top (s : State) : Word := BitVec.ofNat 32 (composeData (s.mem.readBytes s.sp.toNat 4))

/-- What the execute phase of an instruction does when it raises nothing. -/
def Effect (i : Instr) (s t : State) : Prop :=
  match i with
  | .nop => t = s
  | .halt => t = s.setStatus .halted
  | .load8 a => LoadEffect (.absolute a) 1 s t
  | .load16 a => LoadEffect (.absolute a) 2 s t
  | .load32 a => LoadEffect (.absolute a) 4 s t
  | .store8 a => StoreEffect (.absolute a) 1 s t
  | .store16 a => StoreEffect (.absolute a) 2 s t
  | .store32 a => StoreEffect (.absolute a) 4 s t
  | .set v => t = s.setAcc v
  | .setRegister r v => r.toNat < s.nreg ∧ t = s.setReg r v
  | .deref8 r => LoadEffect (.indirect r) 1 s t
  | .deref16 r => LoadEffect (.indirect r) 2 s t
  | .deref32 r => LoadEffect (.indirect r) 4 s t
  | .swap r => ∃ v, s.regs[r.toNat]? = some v ∧ t = (s.setReg r s.acc).setAcc v
  | .write8 r => StoreEffect (.indirect r) 1 s t
  | .write16 r => StoreEffect (.indirect r) 2 s t
  | .write32 r => StoreEffect (.indirect r) 4 s t
  | .readStackPointer => t = s.setAcc s.sp
  | .writeStackPointer => t = s.setSp s.acc
  | .jump a => t = s.setPc a
  | .call a => ∃ u, PushEffect s.pc s u ∧ t = u.setPc a
  | .ret => s.sp.toNat + 4 ≤ s.memSize.toNat ∧ t = (s.setSp (s.sp + 4#32)).setPc s.top
  | .increment => t = (s.setAcc (incremented s.acc)).setZf (zeroFlagOf (incremented s.acc))
  | .decrement => t = (s.setAcc (decremented s.acc)).setZf (zeroFlagOf (decremented s.acc))
  | .incrementRegister r =>
    ∃ v, s.regs[r.toNat]? = some v ∧ t = (s.setReg r (incremented v)).setZf (zeroFlagOf (incremented v))
  | .decrementRegister r =>
    ∃ v, s.regs[r.toNat]? = some v ∧ t = (s.setReg r (decremented v)).setZf (zeroFlagOf (decremented v))
  | .add r => ∃ v, s.regs[r.toNat]? = some v ∧ t = s.setAcc (s.acc + v)
  | .sub r => ∃ v, s.regs[r.toNat]? = some v ∧ t = s.setAcc (s.acc - v)
  | .mul r => ∃ v, s.regs[r.toNat]? = some v ∧ t = s.setAcc (s.acc * v)
  | .div r => ∃ v, s.regs[r.toNat]? = some v ∧ v ≠ 0 ∧ t = (s.setReg r (s.acc % v)).setAcc (s.acc / v)
  | .compare r => ∃ v, s.regs[r.toNat]? = some v ∧ t = s.setCf (compareWords s.acc v)
  | .jumpEqual a => t = if condEqual s.cf then s.setPc a else s
  | .jumpNotEqual a => t = if condNotEqual s.cf then s.setPc a else s
  | .jumpGreater a => t = if condGreater s.cf then s.setPc a else s
  | .jumpLess a => t = if condLess s.cf then s.setPc a else s
  | .jumpGreaterEqual a => t = if condGreaterEqual s.cf then s.setPc a else s
  | .jumpLessEqual a => t = if condLessEqual s.cf then s.setPc a else s
  | .jumpZero a => t = if s.zf then s.setPc a else s
  | .jumpNonzero a => t = if !s.zf then s.setPc a else s
  | .push => PushEffect s.acc s t
  | .pop => s.sp.toNat + 4 ≤ s.memSize.toNat ∧ t = (s.setSp (s.sp + 4#32)).setAcc s.top
  | .pushRegister r => ∃ v, s.regs[r.toNat]? = some v ∧ PushEffect v s t
  | .popRegister r =>
    r.toNat < s.nreg ∧ s.sp.toNat + 4 ≤ s.memSize.toNat ∧ t = (s.setSp (s.sp + 4#32)).setReg r s.top
  | .copyCodeMemory source size =>
    source.toNat + size.toNat ≤ s.exe.length ∧ s.acc.toNat + size.toNat ≤ s.memSize.toNat ∧
      t = s.setMem (s.mem.writeBytes s.acc.toNat ((s.exe.drop source.toNat).take size.toNat))
  | .syscall index =>
    (index = 1 ∧ t = s.emit (decimal s.acc)) ∨
      ∃ bytes, s.cstr s.acc = .ok bytes ∧
        ((index = 0 ∧ t = s.emit (bytes ++ Config.newline)) ∨ (index = 2 ∧ t = s.emit bytes))
  | .data _ _ => t = s

/-- What a meaning can answer: a failure raised in the state it began from, or its effect. -/
def Answers (i : Instr) (s : State) (o : Host.Outcome State Fault Refusal) : Prop :=
  ∃ t, o = .next t ∧ ((∃ c, t = s.raise c) ∨ Effect i s t)

theorem Answers.raised {i : Instr} {s : State} {c : Failure} : Answers i s (.next (s.raise c)) :=
  ⟨_, rfl, .inl ⟨c, rfl⟩⟩

theorem Answers.effect {i : Instr} {s t : State} (h : Effect i s t) : Answers i s (.next t) :=
  ⟨t, rfl, .inr h⟩

/-- Going on with the value of a primitive: its failure is raised, or the continuation answers. -/
theorem Answers.orRaise {i : Instr} {s : State} {α : Type} {r : Except Failure α}
    {k : α → Host.Outcome State Fault Refusal} (h : ∀ v, r = .ok v → Answers i s (k v)) : Answers i s (s.orRaise r k) := by
  cases r with
  | error c => exact .raised
  | ok v => exact h v rfl

/-! ### What a primitive that succeeds says -/

theorem State.writeReg_inv {s t : State} {r : RegIdx} {v : Word} (h : s.writeReg r v = .ok t) :
    r.toNat < s.nreg ∧ t = s.setReg r v := by
  rcases State.writeReg_cases h with ⟨hlt, hx⟩ | ⟨_, hx⟩
  · exact ⟨hlt, by injection hx⟩
  · cases hx

theorem State.chkReg_inv {s : State} {r : RegIdx} {u : Unit} (h : s.chkReg r = .ok u) : r.toNat < s.nreg := by
  rcases State.chkReg_cases h with ⟨hlt, _⟩ | ⟨_, hx⟩
  · exact hlt
  · cases hx

theorem State.memRead_inv {s : State} {a v : Word} {n : Nat} (h : s.memRead a n = .ok v) :
    a.toNat + n ≤ s.memSize.toNat ∧ v = BitVec.ofNat 32 (composeData (s.mem.readBytes a.toNat n)) := by
  rcases State.memRead_cases h with ⟨hle, hx⟩ | ⟨_, hx⟩
  · exact ⟨hle, by injection hx⟩
  · cases hx

theorem State.memWrite_inv {s t : State} {a v : Word} {n : Nat} (h : s.memWrite a n v = .ok t) :
    a.toNat + n ≤ s.memSize.toNat ∧ t = s.setMem (s.mem.writeBytes a.toNat (splitData n v.toNat)) := by
  rcases State.memWrite_cases h with ⟨hle, hx⟩ | ⟨_, hx⟩
  · exact ⟨hle, by injection hx⟩
  · cases hx

theorem State.exeRead_inv {s : State} {a : Word} {n : Nat} {bs : List Byte} (h : s.exeRead a n = .ok bs) :
    a.toNat + n ≤ s.exe.length ∧ bs = (s.exe.drop a.toNat).take n := by
  rcases State.exeRead_cases h with ⟨hle, hx⟩ | ⟨_, hx⟩
  · exact ⟨hle, by injection hx⟩
  · cases hx

theorem State.push_inv {s t : State} {v : Word} (h : s.push v = .ok t) : PushEffect v s t := by
  rcases State.push_cases h with ⟨h4, hm, hx⟩ | ⟨_, hx⟩ | ⟨_, _, hx⟩
  · exact ⟨h4, hm, by injection hx⟩
  · cases hx
  · cases hx

theorem State.pop_inv {s : State} {p : Word × State} (h : s.pop = .ok p) :
    s.sp.toNat + 4 ≤ s.memSize.toNat ∧ p = (s.top, s.setSp (s.sp + 4#32)) := by
  rcases State.pop_cases h with ⟨hm, hx⟩ | ⟨_, hx⟩
  · exact ⟨hm, by injection hx⟩
  · cases hx

theorem divideWords_inv {a d : Word} {p : Word × Word} (h : divideWords a d = .ok p) : d ≠ 0 ∧ p = (a / d, a % d) := by
  unfold divideWords at h
  split at h
  · cases h
  · next hd => exact ⟨hd, by injection h with h; exact h.symm⟩

/-! ### Every instruction -/

theorem loadAcc_answers {i : Instr} {s : State} {mode : AddrMode} {n : Nat}
    (h : ∀ t, LoadEffect mode n s t → Effect i s t) : Answers i s (s.loadAcc mode n) :=
  .orRaise fun a ha => .orRaise fun _ hv =>
    .effect (h _ ⟨a, ha, (State.memRead_inv hv).1, by rw [(State.memRead_inv hv).2]⟩)

theorem storeAcc_answers {i : Instr} {s : State} {mode : AddrMode} {n : Nat}
    (h : ∀ t, StoreEffect mode n s t → Effect i s t) : Answers i s (s.storeAcc mode n) :=
  .orRaise fun a ha => .orRaise fun _ hv => .effect (h _ ⟨a, ha, State.memWrite_inv hv⟩)

theorem accOp_answers {i : Instr} {s : State} {r : RegIdx} {f : Word → Word → Word}
    (h : ∀ v, s.regs[r.toNat]? = some v → Effect i s (s.setAcc (f s.acc v))) : Answers i s (s.accOp r f) :=
  .orRaise fun v hv => .effect (h v (State.readReg_ok_iff.1 hv))

/-- Write a register after reading it, the shape of `Swap`, `Div` and the register increments. -/
theorem readWriteReg_answers {i : Instr} {s : State} {r : RegIdx} {v w : Word}
    {k : State → Host.Outcome State Fault Refusal} (hv : s.readReg r = .ok v)
    (h : s.regs[r.toNat]? = some v → Answers i s (k (s.setReg r w))) : Answers i s (s.orRaise (s.writeReg r w) k) :=
  .orRaise fun t ht => by
    rw [(State.writeReg_inv ht).2]
    exact h (State.readReg_ok_iff.1 hv)

theorem execSyscall_answers (index : Word) (s : State) : Answers (.syscall index) s (execSyscall index s) := by
  unfold execSyscall
  split
  · next h0 =>
    have h0 : index = 0 := BitVec.eq_of_toNat_eq h0
    exact .orRaise fun bs hb => .effect (.inr ⟨bs, hb, .inl ⟨h0, rfl⟩⟩)
  · split
    · next h1 => exact .effect (.inl ⟨BitVec.eq_of_toNat_eq h1, rfl⟩)
    · split
      · next h2 =>
        have h2 : index = 2 := BitVec.eq_of_toNat_eq h2
        exact .orRaise fun bs hb => .effect (.inr ⟨bs, hb, .inr ⟨h2, rfl⟩⟩)
      · exact .raised

theorem execCopyCodeMemory_answers (source size : Word) (s : State) :
    Answers (.copyCodeMemory source size) s (execCopyCodeMemory source size s) := by
  refine .orRaise fun bs hb => ?_
  have hb := State.exeRead_inv hb
  split
  · next hm => exact .effect ⟨hb.1, by simpa [State.inMem] using hm, by rw [hb.2]⟩
  · exact .raised

/-- The execute phase of every instruction answers a next state: a failure raised in the state it began from, or its effect. -/
theorem exec_cases (i : Instr) (s : State) : Answers i s (exec i s) := by
  cases i with
  | nop => exact .effect rfl
  | halt => exact .effect rfl
  | load8 a => exact loadAcc_answers (i := .load8 a) (mode := .absolute a) (n := 1) fun _ h => h
  | load16 a => exact loadAcc_answers (i := .load16 a) (mode := .absolute a) (n := 2) fun _ h => h
  | load32 a => exact loadAcc_answers (i := .load32 a) (mode := .absolute a) (n := 4) fun _ h => h
  | store8 a => exact storeAcc_answers (i := .store8 a) (mode := .absolute a) (n := 1) fun _ h => h
  | store16 a => exact storeAcc_answers (i := .store16 a) (mode := .absolute a) (n := 2) fun _ h => h
  | store32 a => exact storeAcc_answers (i := .store32 a) (mode := .absolute a) (n := 4) fun _ h => h
  | set v => exact .effect rfl
  | setRegister r v => exact .orRaise fun t ht => .effect (State.writeReg_inv ht)
  | deref8 r => exact loadAcc_answers (i := .deref8 r) (mode := .indirect r) (n := 1) fun _ h => h
  | deref16 r => exact loadAcc_answers (i := .deref16 r) (mode := .indirect r) (n := 2) fun _ h => h
  | deref32 r => exact loadAcc_answers (i := .deref32 r) (mode := .indirect r) (n := 4) fun _ h => h
  | swap r => exact .orRaise fun v hv => readWriteReg_answers hv fun h => .effect ⟨v, h, rfl⟩
  | write8 r => exact storeAcc_answers (i := .write8 r) (mode := .indirect r) (n := 1) fun _ h => h
  | write16 r => exact storeAcc_answers (i := .write16 r) (mode := .indirect r) (n := 2) fun _ h => h
  | write32 r => exact storeAcc_answers (i := .write32 r) (mode := .indirect r) (n := 4) fun _ h => h
  | readStackPointer => exact .effect rfl
  | writeStackPointer => exact .effect rfl
  | jump a => exact .effect rfl
  | call a => exact .orRaise fun t ht => .effect ⟨t, State.push_inv ht, rfl⟩
  | ret => exact .orRaise fun p hp => .effect ⟨(State.pop_inv hp).1, by rw [(State.pop_inv hp).2]⟩
  | increment => exact .effect rfl
  | decrement => exact .effect rfl
  | incrementRegister r => exact .orRaise fun v hv => readWriteReg_answers hv fun h => .effect ⟨v, h, rfl⟩
  | decrementRegister r => exact .orRaise fun v hv => readWriteReg_answers hv fun h => .effect ⟨v, h, rfl⟩
  | add r => exact accOp_answers fun v h => ⟨v, h, rfl⟩
  | sub r => exact accOp_answers fun v h => ⟨v, h, rfl⟩
  | mul r => exact accOp_answers fun v h => ⟨v, h, rfl⟩
  | div r =>
    refine .orRaise fun v hv => .orRaise fun p hp => ?_
    obtain ⟨hd, rfl⟩ := divideWords_inv hp
    exact readWriteReg_answers hv fun h => .effect ⟨v, h, hd, rfl⟩
  | compare r => exact .orRaise fun v hv => .effect ⟨v, State.readReg_ok_iff.1 hv, rfl⟩
  | jumpEqual a => exact .effect rfl
  | jumpNotEqual a => exact .effect rfl
  | jumpGreater a => exact .effect rfl
  | jumpLess a => exact .effect rfl
  | jumpGreaterEqual a => exact .effect rfl
  | jumpLessEqual a => exact .effect rfl
  | jumpZero a => exact .effect rfl
  | jumpNonzero a => exact .effect rfl
  | push => exact .orRaise fun t ht => .effect (State.push_inv ht)
  | pop => exact .orRaise fun p hp => .effect ⟨(State.pop_inv hp).1, by rw [(State.pop_inv hp).2]⟩
  | pushRegister r =>
    exact .orRaise fun v hv => .orRaise fun t ht => .effect ⟨v, State.readReg_ok_iff.1 hv, State.push_inv ht⟩
  | popRegister r =>
    exact .orRaise fun _ hr => .orRaise fun p hp =>
      .effect ⟨State.chkReg_inv hr, (State.pop_inv hp).1, by rw [(State.pop_inv hp).2]⟩
  | copyCodeMemory source size => exact execCopyCodeMemory_answers source size s
  | syscall index => exact execSyscall_answers index s
  | data length payload => exact .effect rfl

/-! ### What no effect, or every effect, does -/

/-- An execute phase that did not fail had its effect. -/
theorem effect_of_exec {i : Instr} {s t : State} (h : exec i s = .next t) (hn : ∀ c, t.status ≠ .failed c) : Effect i s t := by
  obtain ⟨u, hu, hc⟩ := exec_cases i s
  rw [h] at hu
  injection hu with hu
  subst hu
  rcases hc with ⟨c, rfl⟩ | he
  · exact absurd rfl (hn c)
  · exact he

/-- Whatever an effect does to data memory, it does by one write of consecutive bytes inside `MEM`. -/
theorem effect_mem {i : Instr} {s t : State} (h : Effect i s t) :
    t.mem = s.mem ∨ ∃ a bs, t.mem = s.mem.writeBytes a bs ∧ a + bs.length ≤ s.memSize.toNat := by
  cases i <;> simp only [Effect, LoadEffect, StoreEffect, PushEffect] at h
  all_goals first
    | (subst h; exact .inl rfl)
    | (rcases h with ⟨_, rfl⟩ | ⟨_, _, ⟨_, rfl⟩ | ⟨_, rfl⟩⟩ <;> exact .inl rfl)
    | (subst h; split <;> exact .inl rfl)
    | (obtain ⟨_, rfl⟩ := h; exact .inl rfl)
    | (obtain ⟨_, _, rfl⟩ := h; exact .inl rfl)
    | (obtain ⟨_, _, _, rfl⟩ := h; exact .inl rfl)
    | (obtain ⟨_, _, hl, rfl⟩ := h; exact .inr ⟨_, _, rfl, by simpa using hl⟩)
    | (obtain ⟨h1, hl, rfl⟩ := h; exact .inr ⟨_, _, rfl, by simp; omega⟩)
    | (obtain ⟨_, _, h1, hl, rfl⟩ := h; exact .inr ⟨_, _, rfl, by simp [State.pushAddr_toNat h1]; omega⟩)
    | (obtain ⟨_, ⟨h1, hl, rfl⟩, rfl⟩ := h; exact .inr ⟨_, _, rfl, by simp [State.pushAddr_toNat h1]; omega⟩)

/-! ### A step -/

/-- `pc` outside `EXE`. -/
theorem State.fetchDecode_outside {s : State} (h : s.exe.length ≤ s.pc.toNat) :
    s.fetchDecode = .error (.programOutOfBounds s.pc) := by
  simp [fetchDecode, fetch, h]

/-- `pc` inside `EXE`: decoding under the Machine's opcode map decides. -/
theorem State.fetchDecode_inside {s : State} (h : s.pc.toNat < s.exe.length) :
    s.fetchDecode =
      match decodeWith s.opc.byte (s.exe.drop s.pc.toNat) with
      | .truncated => .error (.decodeTruncated s.pc)
      | .unknownOpcode op => .error (.decodeUnknownOpcode s.pc op)
      | .instr i => .ok i := by
  cases hd : decodeWith s.opc.byte (s.exe.drop s.pc.toNat) <;> simp [fetchDecode, fetch, Nat.not_le.2 h, hd]

theorem step_of_failed_fetch {s : State} {c : Failure} (hs : s.status = .running) (h : s.fetchDecode = .error c) :
    step s = .next (s.raise c) := by
  simp [step, hs, h]

theorem step_of_decoded {s : State} {i : Instr} (hs : s.status = .running) (h : s.fetchDecode = .ok i) :
    step s = exec i (s.advance i) := by
  simp [step, hs, h]

/-- What a step that answers a next state did: fetch or decode failed, or the decoded instruction failed after the advance, or it
had its effect. -/
theorem step_cases {s t : State} (h : step s = .next t) :
    s.status = .running ∧
      ((∃ c, s.fetchDecode = .error c ∧ t = s.raise c) ∨
       ∃ i, s.fetchDecode = .ok i ∧ ((∃ c, t = (s.advance i).raise c) ∨ Effect i (s.advance i) t)) := by
  unfold step at h
  split at h
  · cases h
  · cases h
  · next hs =>
    refine ⟨hs, ?_⟩
    split at h
    · next c hc => exact .inl ⟨c, hc, by injection h with h; exact h.symm⟩
    · next i hi =>
      obtain ⟨u, hu, hcase⟩ := exec_cases i (s.advance i)
      rw [h] at hu
      injection hu with hu
      subst hu
      exact .inr ⟨i, hi, hcase⟩

end Sys2Proof.Machine
end

