-- ==== Sys2Proof/Laws/PerInstr.lean ====
section
/-! SUPPORT. Statements for all instructions, one lemma per constructor: `size(i) == len(encode(i))` (30_encoding.md R112). -/

namespace Sys2Proof.Laws.EncodedSize

/-- Under every opcode map, an encoding of `i` is `size(i)` bytes long. -/
def Statement (i : Instr) : Prop :=
  ∀ (opc : Mnemonic → Byte) (bytes : List Byte), encodeWith opc i = some bytes → bytes.length = i.size

theorem of_wf (i : Instr) : Statement i := fun _ _ h => by
  obtain ⟨hw, rfl⟩ := encodeWith_some.1 h
  exact operandBytes_length i hw

theorem nop : Statement (.nop) := of_wf _
theorem halt : Statement (.halt) := of_wf _
theorem load8 (v : Word) : Statement (.load8 v) := of_wf _
theorem load16 (v : Word) : Statement (.load16 v) := of_wf _
theorem load32 (v : Word) : Statement (.load32 v) := of_wf _
theorem store8 (v : Word) : Statement (.store8 v) := of_wf _
theorem store16 (v : Word) : Statement (.store16 v) := of_wf _
theorem store32 (v : Word) : Statement (.store32 v) := of_wf _
theorem set (v : Word) : Statement (.set v) := of_wf _
theorem setRegister (r : RegIdx) (v : Word) : Statement (.setRegister r v) := of_wf _
theorem deref8 (r : RegIdx) : Statement (.deref8 r) := of_wf _
theorem deref16 (r : RegIdx) : Statement (.deref16 r) := of_wf _
theorem deref32 (r : RegIdx) : Statement (.deref32 r) := of_wf _
theorem swap (r : RegIdx) : Statement (.swap r) := of_wf _
theorem write8 (r : RegIdx) : Statement (.write8 r) := of_wf _
theorem write16 (r : RegIdx) : Statement (.write16 r) := of_wf _
theorem write32 (r : RegIdx) : Statement (.write32 r) := of_wf _
theorem readStackPointer : Statement (.readStackPointer) := of_wf _
theorem writeStackPointer : Statement (.writeStackPointer) := of_wf _
theorem jump (v : Word) : Statement (.jump v) := of_wf _
theorem call (v : Word) : Statement (.call v) := of_wf _
theorem ret : Statement (.ret) := of_wf _
theorem increment : Statement (.increment) := of_wf _
theorem decrement : Statement (.decrement) := of_wf _
theorem incrementRegister (r : RegIdx) : Statement (.incrementRegister r) := of_wf _
theorem decrementRegister (r : RegIdx) : Statement (.decrementRegister r) := of_wf _
theorem add (r : RegIdx) : Statement (.add r) := of_wf _
theorem sub (r : RegIdx) : Statement (.sub r) := of_wf _
theorem mul (r : RegIdx) : Statement (.mul r) := of_wf _
theorem div (r : RegIdx) : Statement (.div r) := of_wf _
theorem compare (r : RegIdx) : Statement (.compare r) := of_wf _
theorem jumpEqual (v : Word) : Statement (.jumpEqual v) := of_wf _
theorem jumpNotEqual (v : Word) : Statement (.jumpNotEqual v) := of_wf _
theorem jumpGreater (v : Word) : Statement (.jumpGreater v) := of_wf _
theorem jumpLess (v : Word) : Statement (.jumpLess v) := of_wf _
theorem jumpGreaterEqual (v : Word) : Statement (.jumpGreaterEqual v) := of_wf _
theorem jumpLessEqual (v : Word) : Statement (.jumpLessEqual v) := of_wf _
theorem jumpZero (v : Word) : Statement (.jumpZero v) := of_wf _
theorem jumpNonzero (v : Word) : Statement (.jumpNonzero v) := of_wf _
theorem push : Statement (.push) := of_wf _
theorem pop : Statement (.pop) := of_wf _
theorem pushRegister (r : RegIdx) : Statement (.pushRegister r) := of_wf _
theorem popRegister (r : RegIdx) : Statement (.popRegister r) := of_wf _
theorem copyCodeMemory (s n : Word) : Statement (.copyCodeMemory s n) := of_wf _
theorem syscall (v : Word) : Statement (.syscall v) := of_wf _
theorem data (n : Word) (p : List Byte) : Statement (.data n p) := of_wf _

end Sys2Proof.Laws.EncodedSize
end

