-- ==== Sys2Proof/Machine/Assembler.lean ====
section
/-! DEFINITION. The text Assembler: the line grammar and the two passes, as far as 30_encoding.md R120 to R125 describe them
(00_scope.md R5). No step uses it. -/

namespace Sys2Proof.Assembler

/-- A parse error: the error names the line's first token (30_encoding.md R120, 90_conflicts.md C9), or the label that is not declared
(R122), or what the Builder refused when the placeholders were patched. -/
inductive Error
  | line (token : List Char)
  | unresolvedLabel (name : List Char)
  | builder (e : Builder.Error)
deriving DecidableEq, Repr

/-- The tokens of a line: its maximal runs of characters that are not whitespace (30_encoding.md R120). DESIGN CHOICE: whitespace, which
the spec does not define, is space, tab, carriage return and line feed, here and in `trim` and `restOfLine`; a form feed or a no-break
space is part of a token (notes/assumptions/34.md). -/
def tokensFrom (current : List Char) : List Char → List (List Char)
  | [] => if current.isEmpty then [] else [current.reverse]
  | c :: cs =>
    if c.isWhitespace then
      if current.isEmpty then tokensFrom [] cs else current.reverse :: tokensFrom [] cs
    else tokensFrom (c :: current) cs

/-- The tokens of a line. -/
def tokens (line : List Char) : List (List Char) := tokensFrom [] line

/-- The line without the whitespace at its ends, the four characters of `tokensFrom`. -/
def trim (cs : List Char) : List Char :=
  ((cs.dropWhile Char.isWhitespace).reverse.dropWhile Char.isWhitespace).reverse

/-- The rest of the line after its first token, without the whitespace around it (30_encoding.md R124). -/
def restOfLine (line : List Char) : List Char :=
  trim ((line.dropWhile Char.isWhitespace).dropWhile fun c => !c.isWhitespace)

/-- A token in lower case: mnemonics match without regard to case (30_encoding.md R120, R121). DESIGN CHOICE: the case of the ASCII letters
only (notes/assumptions/34.md). -/
def lower (token : List Char) : List Char := token.map Char.toLower

/-- The value of a decimal digit string, if it is one (30_encoding.md R121). -/
def number? : List Char → Option Nat
  | [] => none
  | c :: cs => (c :: cs).foldl (fun acc d => if d.isDigit then acc.map (· * 10 + (d.toNat - 48)) else none) (some 0)

/-- An unsigned integer operand below `2^W`. -/
def word? (token : List Char) : Option Word :=
  match number? token with
  | some n => if n < 2 ^ Config.wordBits then some (BitVec.ofNat 32 n) else none
  | none => none

/-- A register index operand, below 256. -/
def reg? (token : List Char) : Option RegIdx :=
  match number? token with
  | some n => if n < Config.maxRegs then some (BitVec.ofNat 8 n) else none
  | none => none

/-- The UTF-8 bytes of a text (30_encoding.md R124). -/
def utf8Bytes (cs : List Char) : List Byte :=
  cs.flatMap fun c => (String.utf8EncodeChar c).map fun u => BitVec.ofNat 8 u.toNat

/-- The name of a mnemonic in the table of 30_encoding.md R100, in lower case. UNVERIFIED: that text uses these names is decision D24,
notes/assumptions/34.md. -/
def spelling : Mnemonic → String
  | .nop => "nop"
  | .halt => "halt"
  | .load8 => "load8"
  | .load16 => "load16"
  | .load32 => "load32"
  | .store8 => "store8"
  | .store16 => "store16"
  | .store32 => "store32"
  | .set => "set"
  | .setRegister => "setregister"
  | .deref8 => "deref8"
  | .deref16 => "deref16"
  | .deref32 => "deref32"
  | .swap => "swap"
  | .write8 => "write8"
  | .write16 => "write16"
  | .write32 => "write32"
  | .readStackPointer => "readstackpointer"
  | .writeStackPointer => "writestackpointer"
  | .jump => "jump"
  | .call => "call"
  | .ret => "return"
  | .increment => "increment"
  | .decrement => "decrement"
  | .incrementRegister => "incrementregister"
  | .decrementRegister => "decrementregister"
  | .add => "add"
  | .sub => "sub"
  | .mul => "mul"
  | .div => "div"
  | .compare => "compare"
  | .jumpEqual => "jumpequal"
  | .jumpNotEqual => "jumpnotequal"
  | .jumpGreater => "jumpgreater"
  | .jumpLess => "jumpless"
  | .jumpGreaterEqual => "jumpgreaterequal"
  | .jumpLessEqual => "jumplessequal"
  | .jumpZero => "jumpzero"
  | .jumpNonzero => "jumpnonzero"
  | .push => "push"
  | .pop => "pop"
  | .pushRegister => "pushregister"
  | .popRegister => "popregister"
  | .copyCodeMemory => "copycodememory"
  | .syscall => "syscall"
  | .data => "data"

/-- The mnemonic a token spells, if any. -/
def mnemonic? (token : List Char) : Option Mnemonic :=
  Mnemonic.all.find? fun m => (spelling m).toList == lower token

/-- The instruction a mnemonic and its operand tokens spell, for the instructions whose text operands are numbers; operand order is
that of 30_encoding.md R100. The jumps and the data copy take a label instead, and `Data` is written with `dataString`. -/
def numeric? (m : Mnemonic) (operands : List (List Char)) : Option Instr :=
  match m, operands with
  | .nop, [] => some .nop
  | .halt, [] => some .halt
  | .load8, [a] => (word? a).map .load8
  | .load16, [a] => (word? a).map .load16
  | .load32, [a] => (word? a).map .load32
  | .store8, [a] => (word? a).map .store8
  | .store16, [a] => (word? a).map .store16
  | .store32, [a] => (word? a).map .store32
  | .set, [a] => (word? a).map .set
  | .setRegister, [r, a] =>
    match reg? r, word? a with
    | some r, some a => some (.setRegister r a)
    | _, _ => none
  | .deref8, [r] => (reg? r).map .deref8
  | .deref16, [r] => (reg? r).map .deref16
  | .deref32, [r] => (reg? r).map .deref32
  | .swap, [r] => (reg? r).map .swap
  | .write8, [r] => (reg? r).map .write8
  | .write16, [r] => (reg? r).map .write16
  | .write32, [r] => (reg? r).map .write32
  | .readStackPointer, [] => some .readStackPointer
  | .writeStackPointer, [] => some .writeStackPointer
  | .ret, [] => some .ret
  | .increment, [] => some .increment
  | .decrement, [] => some .decrement
  | .incrementRegister, [r] => (reg? r).map .incrementRegister
  | .decrementRegister, [r] => (reg? r).map .decrementRegister
  | .add, [r] => (reg? r).map .add
  | .sub, [r] => (reg? r).map .sub
  | .mul, [r] => (reg? r).map .mul
  | .div, [r] => (reg? r).map .div
  | .compare, [r] => (reg? r).map .compare
  | .push, [] => some .push
  | .pop, [] => some .pop
  | .pushRegister, [r] => (reg? r).map .pushRegister
  | .popRegister, [r] => (reg? r).map .popRegister
  | .syscall, [a] => (word? a).map .syscall
  | _, _ => none

/-- What the first pass has made: the instructions so far, oldest first, the labels with the instruction count they record (30_encoding.md
R122), and the placeholders with the label each waits for (R123, R125). -/
structure Pass where
  prog : List Instr
  labels : List (List Char × Nat)
  jumps : List (Nat × List Char)
  copies : List (Nat × List Char)
deriving DecidableEq, Repr

/-- Emit one instruction. -/
def Pass.emit (p : Pass) (i : Instr) : Pass := { p with prog := p.prog ++ [i] }

/-- An instruction line of the first pass: numbers are read, a label operand makes a placeholder (30_encoding.md R123, R125). -/
def instrLine (p : Pass) (first : List Char) (operands : List (List Char)) : Except Error Pass :=
  match mnemonic? first with
  | none => .error (.line first)
  | some m =>
    match m, operands with
    | .copyCodeMemory, [name] =>
      .ok { p.emit (.copyCodeMemory Builder.sentinel 0) with copies := p.copies ++ [(p.prog.length, name)] }
    | m, operands =>
      match Builder.withTarget m Builder.sentinel, operands with
      | some i, [name] => .ok { p.emit i with jumps := p.jumps ++ [(p.prog.length, name)] }
      | some _, _ => .error (.line first)
      | none, operands =>
        match numeric? m operands with
        | some i => .ok (p.emit i)
        | none => .error (.line first)

/-- One line of the first pass: empty lines and comment lines are skipped, `label` and `dataString` are directives (30_encoding.md R120,
R122, R124). DESIGN CHOICE, all in notes/assumptions/34.md: any one token is a label name (a number, a mnemonic or a token with `#` in it
too) and names are compared exactly, letter case included; a label declared twice is refused; a `dataString` with no text after it is the
empty text, not a wrong argument count. -/
def parseLine (p : Pass) (line : List Char) : Except Error Pass :=
  match tokens line with
  | [] => .ok p
  | first :: operands =>
    if first = ['#'] ∨ first = ['/', '/'] then .ok p
    else if lower first = "label".toList then
      match operands with
      | [name] =>
        if p.labels.any (fun l => l.1 == name) then .error (.line first)
        else .ok { p with labels := p.labels ++ [(name, p.prog.length)] }
      | _ => .error (.line first)
    else if lower first = "datastring".toList then
      .ok (p.emit (Builder.dataString (utf8Bytes (restOfLine line))))
    else instrLine p first operands

/-- The first pass over all lines, which stops at the first error (30_encoding.md R120). -/
def parseLines (p : Pass) : List (List Char) → Except Error Pass
  | [] => .ok p
  | line :: lines =>
    match parseLine p line with
    | .error e => .error e
    | .ok p => parseLines p lines

/-- The instruction index a label records, or "An unresolved label name is a parse error" (30_encoding.md R122). -/
def lookup (labels : List (List Char × Nat)) (name : List Char) : Except Error Nat :=
  match labels.find? (fun l => l.1 == name) with
  | some l => .ok l.2
  | none => .error (.unresolvedLabel name)

/-- Patch placeholders, one patch operation per kind (30_encoding.md R123, R125, R127). -/
def patchAll (patch : List Instr → Nat → Nat → Except Builder.Error (List Instr)) (labels : List (List Char × Nat)) :
    List (Nat × List Char) → List Instr → Except Error (List Instr)
  | [], prog => .ok prog
  | (idx, name) :: rest, prog =>
    match lookup labels name with
    | .error e => .error e
    | .ok target =>
      match patch prog idx target with
      | .error e => .error (.builder e)
      | .ok prog => patchAll patch labels rest prog

/-- The Assembler: the first pass, then the patching of every placeholder (30_encoding.md R120 to R125). DESIGN CHOICE: every jump is
patched before any data copy, each kind in program order, so of several errors of the second pass the one of the first jump is
reported (notes/assumptions/34.md). -/
def assemble (lines : List (List Char)) : Except Error (List Instr) :=
  match parseLines ⟨[], [], [], []⟩ lines with
  | .error e => .error e
  | .ok p =>
    match patchAll Builder.patchJump p.labels p.jumps p.prog with
    | .error e => .error e
    | .ok prog => patchAll Builder.patchCopy p.labels p.copies prog

end Sys2Proof.Assembler
end

