-- ==== Sys2Proof/Tests/Slice0.lean ====
section
/-! SUPPORT. Tests of one step or one decoding each, with the expected results of spec/95_test_vectors.md (the section is named), or worked
out by hand from the rule named; and a witness for the hypotheses of each statement that has any. -/

namespace Sys2Proof.Tests

open Sys2Proof Sys2Proof.Machine

/-- The next state, if there is one. -/
def after (o : Host.Outcome State Fault Refusal) : Option State :=
  match o with
  | .next t => some t
  | .fault _ => none
  | .refused _ => none

theorem next_of_after {o : Host.Outcome State Fault Refusal} {t : State} (h : after o = some t) : o = .next t := by
  cases o with
  | next u => injection h with h; rw [h]
  | fault f => cases h
  | refused r => cases h

/-- The state after the execute phase of an instruction. -/
def run (i : Instr) (s : State) : Option State := after (exec i s)

/-- A Machine with the default opcode map. -/
def machine (exe : List Byte) (memSize : Word) (nreg : Nat) (cf : Comparison) : State :=
  State.construct exe memSize nreg cf OpcodeMap.standard

/-- Another legal opcode map: the default numbers counted down from 0xFF. -/
def otherMap : OpcodeMap := OpcodeMap.ofMap fun m => 0xFF - opcode m

theorem otherMap_legal : otherMap.Legal :=
  OpcodeMap.legal_ofMap fun _ _ h => opcode_injective (sub_right_injective h)

/-- The common start of 95_test_vectors.md 2.2. -/
def moves : State :=
  { machine [] 32 2 .equal with
    acc := 0xFFFFFFFF, regs := [16, 30], mem := [(16, 0x11), (17, 0x22), (18, 0x33), (19, 0x44)] }

/-- The start of the arithmetic vectors (95_test_vectors.md 2.4): `NREG = 1`. -/
def arith (acc x0 : Word) : State :=
  { machine [] 16 1 .equal with acc := acc, regs := [x0] }

/-- The start of the stack vectors (95_test_vectors.md 2.3, 2.6): `MEM_SIZE = 256`, `NREG = 2`. -/
def stack (acc sp : Word) : State :=
  { machine [] 256 2 .equal with acc := acc, sp := sp }

/-- The stack start with the word `0x11223344` at 252. -/
def stacked (sp : Word) : State :=
  { stack 0 sp with mem := [(252, 0x11), (253, 0x22), (254, 0x33), (255, 0x44)] }

/-- A conditional jump at address 10, its `pc` already advanced (95_test_vectors.md 2.5). -/
def atTen (cf : Comparison) (zf : Bool) : State :=
  { machine [] 16 0 cf with pc := 15, zf := zf }

/-- Program P2 of 95_test_vectors.md section 3. -/
def helloExe : List Byte :=
  [0x08, 0, 0, 0, 0x0A, 0x2D, 0, 0, 0, 0x0D, 0x48, 0x65, 0x6C, 0x6C, 0x6F, 0x20, 0x77, 0x6F, 0x72, 0x6C, 0x64, 0x21, 0x00,
   0x2B, 0, 0, 0, 0x0A, 0, 0, 0, 0x0D, 0x2C, 0, 0, 0, 0, 0x01]

/-- The start of the copy vectors (95_test_vectors.md 2.7). -/
def hello (acc : Word) : State :=
  { machine helloExe 32 0 .equal with acc := acc }

/-- `MEM` holding "Hi" and a NUL at 10, then a byte that is no UTF-8 and a NUL (95_test_vectors.md 2.7). -/
def text (acc : Word) : State :=
  { machine [] 16 0 .equal with acc := acc, mem := [(10, 0x48), (11, 0x69), (13, 0xFF), (15, 0x41)] }

/-! ### WellFormed -/

theorem test_wf_refuses_wrong_data_length : (Instr.data 3 [0x41, 0x42]).wf = false := by decide

theorem test_encode_refuses_wrong_data_length : encode (.data 3 [0x41, 0x42]) = none := by decide

theorem test_wf_accepts_data : (Instr.data 2 [0x41, 0x42]).wf = true := by decide

/-! ### Decoding: every row of 30_encoding.md R100, with words written out from R86 and 95_test_vectors.md 2.1 -/

theorem test_decode_format_n : ∀ p ∈ ([([0x00], .nop), ([0x01], .halt), ([0x11], .readStackPointer), ([0x12], .writeStackPointer),
    ([0x15], .ret), ([0x16], .increment), ([0x17], .decrement), ([0x27], .push), ([0x28], .pop)] : List (List Byte × Instr)),
    decode p.1 = .instr p.2 ∧ decode (p.1 ++ [0xFF]) = .instr p.2 := by decide

theorem test_decode_format_w_memory : ∀ p ∈ ([([0x02, 0, 0, 1, 2], .load8 0x102), ([0x03, 0, 0, 1, 2], .load16 0x102),
    ([0x04, 0, 0, 1, 2], .load32 0x102), ([0x05, 1, 2, 3, 4], .store8 0x1020304), ([0x06, 1, 2, 3, 4], .store16 0x1020304),
    ([0x07, 0xFF, 0xFF, 0xFF, 0xFF], .store32 4294967295), ([0x08, 0x11, 0x22, 0x33, 0x44], .set 0x11223344),
    ([0x2C, 0, 0, 0, 2], .syscall 2)] : List (List Byte × Instr)),
    decode p.1 = .instr p.2 := by decide

theorem test_decode_format_w_jumps : ∀ p ∈ ([([0x13, 0, 0, 0, 0x28], .jump 40), ([0x14, 0, 0, 0, 0x10], .call 16),
    ([0x1F, 0, 0, 0, 0x28], .jumpEqual 40), ([0x20, 0, 0, 0, 0x28], .jumpNotEqual 40), ([0x21, 0, 0, 0, 0x28], .jumpGreater 40),
    ([0x22, 0, 0, 0, 0x31], .jumpLess 49), ([0x23, 0, 0, 0, 0x28], .jumpGreaterEqual 40), ([0x24, 0, 1, 0, 0], .jumpLessEqual 65536),
    ([0x25, 0, 0, 0, 0x28], .jumpZero 40), ([0x26, 0, 0, 0, 5], .jumpNonzero 5)] : List (List Byte × Instr)),
    decode p.1 = .instr p.2 := by decide

theorem test_decode_format_r : ∀ p ∈ ([([0x0A, 7], .deref8 7), ([0x0B, 7], .deref16 7), ([0x0C, 7], .deref32 7), ([0x0D, 0], .swap 0),
    ([0x0E, 1], .write8 1), ([0x0F, 1], .write16 1), ([0x10, 0], .write32 0), ([0x18, 3], .incrementRegister 3),
    ([0x19, 3], .decrementRegister 3), ([0x1A, 0], .add 0), ([0x1B, 0], .sub 0), ([0x1C, 0], .mul 0), ([0x1D, 0xFF], .div 255),
    ([0x1E, 1], .compare 1), ([0x29, 3], .pushRegister 3), ([0x2A, 3], .popRegister 3)] : List (List Byte × Instr)),
    decode p.1 = .instr p.2 := by decide

theorem test_decode_format_rw_ww_d : ∀ p ∈ ([([0x09, 0xFF, 0, 0, 0, 1], .setRegister 255 1),
    ([0x2B, 0, 0, 0, 0x0A, 0, 0, 0, 0x0D], .copyCodeMemory 10 13), ([0x2D, 0, 0, 0, 2, 0x41, 0x42], .data 2 [0x41, 0x42]),
    ([0x2D, 0, 0, 0, 0], .data 0 [])] : List (List Byte × Instr)),
    decode p.1 = .instr p.2 := by decide

theorem test_decode_errors : decode [] = .truncated ∧ decode [0x2E] = .unknownOpcode 0x2E ∧ decode [0xFF] = .unknownOpcode 0xFF ∧
    decode [0x08, 0, 0, 0] = .truncated ∧ decode [0x1D] = .truncated ∧ decode [0x2B, 0, 0, 0, 0x0A, 0, 0, 0] = .truncated ∧
    decode [0x2D, 0, 0, 0, 2, 0x41] = .truncated ∧ decode [0x2D, 0, 0, 0] = .truncated := by decide

/-- The table numbers a word's bits from its first byte: `Set 1` is `08 00 00 00 01`. -/
theorem test_decodeTableWord : decodeTableWord 40 0x0100000008 = some (.set 1) ∧ decodeTableWord 8 0x2E = none ∧
    decodeTableWord 8 0x02 = some (.load8 0) := by decide

/-! ### One execute phase for each instruction -/

theorem test_nop : run .nop moves = some moves := by decide

theorem test_halt : run .halt moves = some { moves with status := .halted } := by decide

theorem test_data : run (.data 2 [0x01, 0x42]) moves = some moves := by decide

theorem test_load8 : run (.load8 19) moves = some { moves with acc := 0x44 } ∧
    run (.load8 4294967295) moves = some { moves with status := .failed (.memoryOutOfBounds 4294967295) } := by decide

theorem test_load16 : run (.load16 17) moves = some { moves with acc := 0x2233 } ∧
    run (.load16 31) moves = some { moves with status := .failed (.memoryOutOfBounds 31) } := by decide

theorem test_load32 : run (.load32 16) moves = some { moves with acc := 0x11223344 } ∧
    run (.load32 28) moves = some { moves with acc := 0 } ∧
    run (.load32 29) moves = some { moves with status := .failed (.memoryOutOfBounds 29) } := by decide

theorem test_store8 : (run (.store8 0) { moves with acc := 0xAABBCCDD }).map (·.mem.readBytes 0 2) = some [0xDD, 0] := by decide

theorem test_store16 : (run (.store16 0) { moves with acc := 0xAABBCCDD }).map (·.mem.readBytes 0 3) = some [0xCC, 0xDD, 0] ∧
    run (.store16 31) moves = some { moves with status := .failed (.memoryOutOfBounds 31) } := by decide

theorem test_store32 : (run (.store32 0) { moves with acc := 0xAABBCCDD }).map (·.mem.readBytes 0 5) =
    some [0xAA, 0xBB, 0xCC, 0xDD, 0] := by decide

/-- Storing the value an unlisted byte reads as takes the entry out of the list (the canonical form). -/
theorem test_store8_zero : (run (.store8 17) { moves with acc := 0x100 }).map (·.mem) =
    some [(16, 0x11), (18, 0x33), (19, 0x44)] := by decide

theorem test_set : run (.set 0) { moves with zf := false } = some { moves with acc := 0 } := by decide

theorem test_setRegister : run (.setRegister 1 7) moves = some { moves with regs := [16, 7] } ∧
    run (.setRegister 2 7) moves = some { moves with status := .failed (.registerOutOfRange 2) } := by decide

theorem test_deref8 : run (.deref8 0) moves = some { moves with acc := 0x11 } ∧
    run (.deref8 2) moves = some { moves with status := .failed (.registerOutOfRange 2) } := by decide

theorem test_deref16 : run (.deref16 0) moves = some { moves with acc := 0x1122 } := by decide

theorem test_deref32 : run (.deref32 0) moves = some { moves with acc := 0x11223344 } ∧
    run (.deref32 1) moves = some { moves with status := .failed (.memoryOutOfBounds 30) } := by decide

theorem test_swap : run (.swap 0) moves = some { moves with acc := 16, regs := [0xFFFFFFFF, 30] } := by decide

theorem test_write8 : (run (.write8 0) { moves with acc := 0xAABBCCDD }).map (·.mem.readBytes 16 4) =
    some [0xDD, 0x22, 0x33, 0x44] := by decide

theorem test_write16 : (run (.write16 1) { moves with acc := 0xAABBCCDD }).map (·.mem.readBytes 29 3) = some [0, 0xCC, 0xDD] := by
  decide

theorem test_write32 : (run (.write32 0) { moves with acc := 0xAABBCCDD }).map (·.mem.readBytes 16 4) =
    some [0xAA, 0xBB, 0xCC, 0xDD] ∧
    run (.write32 1) moves = some { moves with status := .failed (.memoryOutOfBounds 30) } := by decide

theorem test_readStackPointer : run .readStackPointer (stack 0 256) = some (stack 256 256) := by decide

theorem test_writeStackPointer : run .writeStackPointer (stack 1000 256) = some (stack 1000 1000) := by decide

theorem test_jump : run (.jump 40) (atTen .less true) = some { atTen .less true with pc := 40 } := by decide

theorem test_call : (run (.call 16) { stack 0 256 with pc := 10 }).map (fun t => (t.mem.readBytes 252 4, t.sp, t.pc)) =
    some ([0, 0, 0, 0x0A], 252, 16) ∧
    run (.call 16) { stack 0 2 with pc := 10 } = some { stack 0 2 with pc := 10, status := .failed .stackOverflow } := by decide

theorem test_ret : run .ret { stack 0 252 with pc := 52, mem := [(255, 0x0A)] } =
    some { stack 0 256 with pc := 10, mem := [(255, 0x0A)] } ∧
    run .ret (stack 0 253) = some { stack 0 253 with status := .failed .stackUnderflow } := by decide

theorem test_increment : run .increment (arith 41 0) = some (arith 42 0) ∧
    run .increment (arith 0xFFFFFFFF 0) = some { arith 0 0 with zf := true } := by decide

theorem test_decrement : run .decrement (arith 1 0) = some { arith 0 0 with zf := true } ∧
    run .decrement { arith 0 0 with zf := true } = some { arith 0xFFFFFFFF 0 with zf := false } := by decide

theorem test_incrementRegister : run (.incrementRegister 0) (arith 9 0xFFFFFFFF) = some { arith 9 0 with zf := true } := by decide

theorem test_decrementRegister : run (.decrementRegister 0) (arith 9 1) = some { arith 9 0 with zf := true } ∧
    run (.decrementRegister 0) (arith 9 0) = some { arith 9 0xFFFFFFFF with zf := false } := by decide

theorem test_add : run (.add 0) (arith 0x80000000 0x80000000) = some (arith 0 0x80000000) ∧
    run (.add 1) (arith 1 2) = some { arith 1 2 with status := .failed (.registerOutOfRange 1) } := by decide

theorem test_sub : run (.sub 0) (arith 3 5) = some (arith 0xFFFFFFFE 5) := by decide

theorem test_mul : run (.mul 0) (arith 0xFFFFFFFF 0xFFFFFFFF) = some (arith 1 0xFFFFFFFF) := by decide

theorem test_div : run (.div 0) (arith 17 5) = some (arith 3 2) ∧
    run (.div 0) (arith 0xFFFFFFFF 2) = some (arith 0x7FFFFFFF 1) ∧
    run (.div 0) (arith 7 0) = some { arith 7 0 with status := .failed .divisionByZero } := by decide

theorem test_compare : run (.compare 0) (arith 1 2) = some { arith 1 2 with cf := .less } ∧
    run (.compare 0) (arith 0xFFFFFFFF 1) = some { arith 0xFFFFFFFF 1 with cf := .greater } := by decide

theorem test_jumpEqual : (run (.jumpEqual 40) (atTen .less false)).map (·.pc) = some 15 ∧
    (run (.jumpEqual 40) (atTen .equal false)).map (·.pc) = some 40 ∧
    (run (.jumpEqual 40) (atTen .greater false)).map (·.pc) = some 15 := by decide

theorem test_jumpNotEqual : (run (.jumpNotEqual 40) (atTen .less false)).map (·.pc) = some 40 ∧
    (run (.jumpNotEqual 40) (atTen .equal false)).map (·.pc) = some 15 ∧
    (run (.jumpNotEqual 40) (atTen .greater false)).map (·.pc) = some 40 := by decide

theorem test_jumpGreater : (run (.jumpGreater 40) (atTen .less false)).map (·.pc) = some 15 ∧
    (run (.jumpGreater 40) (atTen .equal false)).map (·.pc) = some 15 ∧
    (run (.jumpGreater 40) (atTen .greater false)).map (·.pc) = some 40 := by decide

theorem test_jumpLess : (run (.jumpLess 40) (atTen .less false)).map (·.pc) = some 40 ∧
    (run (.jumpLess 40) (atTen .equal false)).map (·.pc) = some 15 ∧
    (run (.jumpLess 40) (atTen .greater false)).map (·.pc) = some 15 := by decide

theorem test_jumpGreaterEqual : (run (.jumpGreaterEqual 40) (atTen .less false)).map (·.pc) = some 15 ∧
    (run (.jumpGreaterEqual 40) (atTen .equal false)).map (·.pc) = some 40 ∧
    (run (.jumpGreaterEqual 40) (atTen .greater false)).map (·.pc) = some 40 := by decide

theorem test_jumpLessEqual : (run (.jumpLessEqual 40) (atTen .less false)).map (·.pc) = some 40 ∧
    (run (.jumpLessEqual 40) (atTen .equal false)).map (·.pc) = some 40 ∧
    (run (.jumpLessEqual 40) (atTen .greater false)).map (·.pc) = some 15 := by decide

theorem test_jumpZero : (run (.jumpZero 40) (atTen .equal false)).map (·.pc) = some 15 ∧
    (run (.jumpZero 40) (atTen .equal true)).map (·.pc) = some 40 := by decide

theorem test_jumpNonzero : (run (.jumpNonzero 40) (atTen .equal false)).map (·.pc) = some 40 ∧
    (run (.jumpNonzero 40) (atTen .equal true)).map (·.pc) = some 15 := by decide

theorem test_push : (run .push (stack 0x11223344 256)).map (fun t => (t.mem.readBytes 252 4, t.sp)) =
    some ([0x11, 0x22, 0x33, 0x44], 252) ∧
    run .push (stack 1 3) = some { stack 1 3 with status := .failed .stackOverflow } ∧
    run .push (stack 1 258) = some { stack 1 258 with status := .failed (.memoryOutOfBounds 254) } := by decide

theorem test_pop : run .pop (stacked 252) = some { stacked 256 with acc := 0x11223344 } ∧
    run .pop (stacked 0xFFFFFFFE) = some { stacked 0xFFFFFFFE with status := .failed .stackUnderflow } := by decide

theorem test_pushRegister : (run (.pushRegister 0) { stack 0 252 with regs := [233, 0] }).map
    (fun t => (t.mem.readBytes 248 4, t.sp)) = some ([0, 0, 0, 0xE9], 248) := by decide

theorem test_popRegister : run (.popRegister 1) (stacked 252) = some { stacked 256 with regs := [0, 0x11223344] } ∧
    run (.popRegister 5) (stacked 256) = some { stacked 256 with status := .failed (.registerOutOfRange 5) } := by decide

theorem test_copyCodeMemory : (run (.copyCodeMemory 30 8) (hello 0)).map (·.mem.readBytes 0 9) =
    some [0, 0x0D, 0x2C, 0, 0, 0, 0, 0x01, 0] ∧
    run (.copyCodeMemory 38 0) (hello 32) = some (hello 32) := by decide

theorem test_copyCodeMemory_judges_source_first :
    run (.copyCodeMemory 30 9) (hello 40) = some { hello 40 with status := .failed (.programOutOfBounds 30) } ∧
    run (.copyCodeMemory 0 0) (hello 33) = some { hello 33 with status := .failed (.memoryOutOfBounds 33) } := by decide

theorem test_syscall : run (.syscall 0) (text 10) = some { text 10 with out := [0x48, 0x69, 0x0A] } ∧
    run (.syscall 1) (text 610) = some { text 610 with out := [0x36, 0x31, 0x30] } ∧
    run (.syscall 2) (text 12) = some (text 12) := by decide

theorem test_syscall_failures : run (.syscall 3) (text 10) = some { text 10 with status := .failed (.unknownSyscall 3) } ∧
    run (.syscall 0) (text 13) = some { text 13 with status := .failed (.stringInvalidUtf8 13) } ∧
    run (.syscall 2) (text 15) = some { text 15 with status := .failed (.stringUnterminated 15) } ∧
    run (.syscall 2) (text 16) = some { text 16 with status := .failed (.memoryOutOfBounds 16) } := by decide

/-- 46_copy_syscall.md R262: the least and the greatest sequence of each length, an overlong one, a surrogate, one above U+10FFFF. -/
theorem test_utf8 : utf8Valid [0xC2, 0x80, 0xE0, 0xA0, 0x80, 0xF0, 0x90, 0x80, 0x80, 0xF4, 0x8F, 0xBF, 0xBF] = true ∧
    utf8Valid [0xC1, 0xBF] = false ∧ utf8Valid [0xE0, 0x9F, 0xBF] = false ∧ utf8Valid [0xED, 0xA0, 0x80] = false ∧
    utf8Valid [0xF4, 0x90, 0x80, 0x80] = false ∧ utf8Valid [0xE1, 0x80] = false := by decide

theorem test_decimal : decimal 0 = [0x30] ∧ decimal 610 = [0x36, 0x31, 0x30] ∧
    decimal 4294967295 = [0x34, 0x32, 0x39, 0x34, 0x39, 0x36, 0x37, 0x32, 0x39, 0x35] := by decide

/-! ### One step -/

/-- 95_test_vectors.md P5: the failing load leaves `pc` past it. -/
theorem test_step_failing_load : after (step (machine [0x02, 0, 0, 0, 0x10, 0x01] 16 0 .equal)) =
    some { machine [0x02, 0, 0, 0, 0x10, 0x01] 16 0 .equal with pc := 5, status := .failed (.memoryOutOfBounds 16) } := by
  decide

/-- The first step of 95_test_vectors.md P2. -/
theorem test_step_set : after (step (hello 0)) = some { hello 10 with pc := 5 } := by decide

/-- 30_encoding.md R100: under another injective map the bytes of the same program are others (255 - 8 for `Set`), and the default byte of
`Set` is unknown. -/
theorem test_step_under_another_map :
    after (step (State.construct [0xF7, 0, 0, 0, 7] 16 0 .equal otherMap)) =
      some { State.construct [0xF7, 0, 0, 0, 7] 16 0 .equal otherMap with acc := 7, pc := 5 } ∧
    (after (step (State.construct [0x08, 0, 0, 0, 7] 16 0 .equal otherMap))).map (·.status) =
      some (.failed (.decodeUnknownOpcode 0 0x08)) := by decide

/-- 40_step_cycle.md R131, R132: failures of fetch and decode leave `pc` at the instruction. -/
theorem test_step_fetch_and_decode_failures :
    (after (step State.reset)).map (·.status) = some (.failed (.programOutOfBounds 0)) ∧
    (after (step (machine [0x2E] 16 0 .equal))).map (fun t => (t.pc, t.status)) =
      some (0, .failed (.decodeUnknownOpcode 0 0x2E)) ∧
    (after (step (machine [0x00, 0x08, 0, 0] 16 0 .equal))).map (·.pc) = some 1 ∧
    (after (step { machine [0x00, 0x08, 0, 0] 16 0 .equal with pc := 1 })).map (fun t => (t.pc, t.status)) =
      some (1, .failed (.decodeTruncated 1)) := by decide

/-- Placed where fetch reads, the table's word of `Set 1` runs as the first instruction after reset. -/
theorem test_withFetchWord : (after (step (State.reset.withFetchWord 40 0x0100000008))).map (fun t => (t.acc, t.pc)) = some (1, 5) := by
  decide

/-! ### The Program Builder and the Assembler -/

/-- 30_encoding.md R112, R123: the addresses of instructions, and a placeholder patched once and not again. -/
theorem test_builder_patch : Builder.patchJump [.set 5, .syscall 1, .decrement, .jumpNonzero Builder.sentinel] 3 1 =
    .ok [.set 5, .syscall 1, .decrement, .jumpNonzero 5] ∧
    Builder.patchJump [.set 5, .syscall 1, .decrement, .jumpNonzero 5] 3 1 = .error .notPlaceholder ∧
    Builder.executable OpcodeMap.standard [.set 5, .halt] = .ok [0x08, 0, 0, 0, 5, 0x01] := by decide

/-- 30_encoding.md R120 to R125: labels, a comment line, mnemonics without regard to case, a data string and its copy. -/
theorem test_assembler : Assembler.assemble
    ["# text".toList, "label d".toList, "dataString Hi".toList, "COPYCODEMEMORY d".toList, "jump d".toList] =
    .ok [.data 3 [0x48, 0x69, 0], .copyCodeMemory 5 3, .jump 0] ∧
    Assembler.assemble ["jump q".toList] = .error (.unresolvedLabel ['q']) ∧
    Assembler.assemble ["set 5 6".toList] = .error (.line "set".toList) := by decide

/-- The model's choices of notes/assumptions/34.md: label names are compared exactly, an absent text is empty, jumps are patched first, a tab
separates tokens and a form feed does not. -/
theorem test_assembler_choices : Assembler.assemble ["label D".toList, "dataString".toList, "jump d".toList] =
    .error (.unresolvedLabel ['d']) ∧ Assembler.assemble ["dataString".toList] = .ok [.data 1 [0]] ∧
    Assembler.assemble ["CopyCodeMemory a".toList, "jump b".toList] = .error (.unresolvedLabel ['b']) ∧
    Assembler.tokens ['a', '\t', 'b', '\x0c', 'c'] = [['a'], ['b', '\x0c', 'c']] := by decide

/-! ### Witnesses: a concrete case for the hypotheses of each statement, at the boundary of each clause -/

theorem witness_EncodingsDecodeBackAndCompose : Function.Injective opcode ∧ (Instr.data 1 [0xFF]).wf = true ∧
    decodeWith opcode [0x2D, 0, 0, 0, 1, 0xFF, 0x00] = .instr (.data 1 [0xFF]) ∧
    Builder.compileWith opcode [.data 1 [0xFF], .halt] = some [0x2D, 0, 0, 0, 1, 0xFF, 0x01] ∧
    ([.data 1 [0xFF], .halt] : List Instr)[1]? = some .halt ∧ Function.Injective otherMap.byte :=
  ⟨opcode_injective, by decide, by decide, by decide, by decide, otherMap_legal.2⟩

theorem witness_OpcodeTableIsDecodedRowByRow :
    ([0x41, 0x42] : List Byte).length = ((0#8 ++ 0#8 ++ 0#8 ++ 2#8 : Word)).toNat := by decide

theorem witness_DecodeErrorsExactly : Function.Injective opcode ∧ decodeWith opcode [0x2E, 0x00] = .unknownOpcode 0x2E ∧
    decodeWith opcode [0x2D] = .truncated ∧ (∀ m, opcode m ≠ 0x2E) ∧ ¬ (∀ m, opcode m ≠ 0x2D) ∧
    ([opcode .div] : List Byte).length < Mnemonic.div.format.need ∧
    ([0x41] : List Byte).length < (0#8 ++ 0#8 ++ 0#8 ++ 2#8 : Word).toNat :=
  ⟨opcode_injective, by decide, by decide, fun m => by cases m <;> decide, fun h => h .data rfl, by decide, by decide⟩

theorem witness_DecodedInstructionLiesInTheBuffer :
    decodeWith opcode [0x09, 0xFF, 0, 0, 0, 1, 0x00] = .instr (.setRegister 255 1) := by decide

theorem witness_EncoderRefusesOnlyWrongDataLength : 2 ^ 32 ≤ (List.replicate (2 ^ 32) (0 : Byte)).length := by
  rw [List.length_replicate]

/-- The last instruction of a program, ending exactly at `EXE_LEN`. -/
theorem witness_StepRunsTheDecodedInstruction :
    { hello 10 with pc := 37 }.status = .running ∧ { hello 10 with pc := 37 }.pc.toNat < (hello 10).exe.length ∧
    decodeWith (hello 10).opc.byte ((hello 10).exe.drop 37) = .instr .halt ∧ (hello 10).exe.length ≤ Config.maxWord.toNat := by decide

theorem witness_FetchOutsideTheProgramFails :
    { hello 10 with pc := 38 }.status = .running ∧ (hello 10).exe.length ≤ (38 : Word).toNat := by decide

theorem witness_DecodePhaseOfAStep :
    decodeWith (machine [0x00, 0x08, 0, 0] 16 0 .equal).opc.byte ((machine [0x00, 0x08, 0, 0] 16 0 .equal).exe.drop 1) = .truncated ∧
    decodeWith (machine [0x00, 0x2E] 16 0 .equal).opc.byte ((machine [0x00, 0x2E] 16 0 .equal).exe.drop 1) = .unknownOpcode 0x2E ∧
    decodeWith (machine [0x00, 0x2D, 0, 0, 0, 0] 16 0 .equal).opc.byte ((machine [0x00, 0x2D, 0, 0, 0, 0] 16 0 .equal).exe.drop 1) = .instr (.data 0 []) ∧
    (1 : Word).toNat < (machine [0x00, 0x2E] 16 0 .equal).exe.length ∧
    { machine [0x00, 0x2E] 16 0 .equal with pc := 1 }.status = .running := by decide

theorem witness_StepIsDefinedExactlyWhenRunning : moves.status = .running ∧ { moves with status := .halted }.status = .halted ∧
    { moves with status := .failed .stackOverflow }.status = .failed .stackOverflow := by decide

theorem witness_ExecuteFailsHaltsOrGoesOn : (stack 1 3).status = .running ∧
    (run .push (stack 1 3)).map (·.status) = some (.failed .stackOverflow) ∧
    (run .halt (stack 1 3)).map (·.status) = some .halted ∧ (run .push (stack 1 4)).map (·.status) = some .running := by decide

theorem witness_InstructionsThatNeverFail : (Instr.writeStackPointer).mnemonic ∈ [Mnemonic.nop, .halt, .data, .set, .readStackPointer,
      .writeStackPointer, .jump, .increment, .decrement, .jumpEqual, .jumpNotEqual, .jumpGreater, .jumpLess, .jumpGreaterEqual,
      .jumpLessEqual, .jumpZero, .jumpNonzero] ∧
    (stack 1000 256).status = .running ∧ exec .writeStackPointer (stack 1000 256) = .next (stack 1000 1000) :=
  ⟨by decide, by decide, next_of_after (by decide)⟩

theorem witness_RegisterIndexIsJudgedFirst : moves.nreg ≤ (2 : RegIdx).toNat ∧ ¬ moves.nreg ≤ (1 : RegIdx).toNat ∧
    State.reset.nreg = 256 ∧ State.reset.status = .running ∧
    exec (.set 7) State.reset = .next (State.reset.setAcc 7) :=
  ⟨by decide, by decide, List.length_replicate .., by decide, rfl⟩

theorem witness_RunRepeatsTheStepUntilTerminal : step (hello 0) = .next { hello 10 with pc := 5 } ∧
    (State.runFor 1 (machine [0x01] 16 0 .equal)).status ≠ .running ∧
    (machine [0x01] 16 0 .equal).Halts ∧
    (State.runFor 1 (machine [0x2E] 16 0 .equal)).HasFailed :=
  ⟨next_of_after (by decide), by decide, ⟨1, by decide⟩, ⟨.decodeUnknownOpcode 0 0x2E, by decide⟩⟩

/-- A Machine that hangs: a jump to itself. -/
theorem witness_RunRepeatsTheStepUntilTerminal_hangs : (machine [0x13, 0, 0, 0, 0] 16 0 .equal).Hangs := by
  have h : step (machine [0x13, 0, 0, 0, 0] 16 0 .equal) = .next (machine [0x13, 0, 0, 0, 0] 16 0 .equal) :=
    next_of_after (by decide)
  intro n
  induction n with
  | zero => decide
  | succ n ih => rw [State.runFor, h]; exact ih

/-- A Program with a `Data` before the instruction that runs, under each of two maps. -/
theorem witness_CompiledProgramsRunInstructionByInstruction :
    (OpcodeMap.standard.Legal ∧ otherMap.Legal) ∧
    (machine [0x2D, 0, 0, 0, 1, 0xFF, 0x01] 16 0 .equal).status = .running ∧
    Builder.executable OpcodeMap.standard [.data 1 [0xFF], .halt] = .ok [0x2D, 0, 0, 0, 1, 0xFF, 0x01] ∧
    Builder.executable otherMap [.data 1 [0xFF], .halt] = .ok [0xD2, 0, 0, 0, 1, 0xFF, 0xFE] ∧
    ([.data 1 [0xFF], .halt] : List Instr)[1]? = some .halt ∧
    (6 : Word).toNat = Builder.address [.data 1 [0xFF], .halt] 1 :=
  ⟨⟨OpcodeMap.legal_standard, otherMap_legal⟩, by decide, by decide, by decide, by decide, by decide⟩

theorem witness_ProgramMemoryIsImmutable :
    exec (.store8 31) moves = .next { moves with mem := moves.mem ++ [(31, 0xFF)] } ∧
    step (hello 0) = .next { hello 10 with pc := 5 } :=
  ⟨next_of_after (by decide), next_of_after (by decide)⟩

/-- A state with memory that has the invariant, and a step of it that stores the last byte of `MEM`. -/
theorem witness_StepKeepsTheInvariant :
    { moves with exe := [0x05, 0, 0, 0, 31] }.Inv ∧
    step { moves with exe := [0x05, 0, 0, 0, 31] } =
      .next { moves with exe := [0x05, 0, 0, 0, 31], pc := 5, mem := moves.mem ++ [(31, 0xFF)] } :=
  ⟨⟨by decide, by decide, by decide, by decide, OpcodeMap.legal_standard⟩, next_of_after (by decide)⟩

theorem witness_ConstructionHasTheInvariant : helloExe.length ≤ Config.maxWord.toNat ∧ 256 ≤ Config.maxRegs ∧ otherMap.Legal :=
  ⟨by decide, by decide, otherMap_legal⟩

theorem witness_ConstructionLeavesTheResetValues : (255 : RegIdx).toNat < 256 ∧ (0 : RegIdx).toNat < 1 := by decide

/-- Each piece of state is written by some instruction of its list. -/
theorem witness_WritersOfEachPieceOfState :
    (∃ t, exec (.set 1) moves = .next t ∧ t.acc ≠ moves.acc) ∧ (∃ t, exec (.swap 0) moves = .next t ∧ t.regs ≠ moves.regs) ∧
    (∃ t, exec (.jump 40) moves = .next t ∧ t.pc ≠ moves.pc) ∧ (∃ t, exec .push moves = .next t ∧ t.sp ≠ moves.sp) ∧
    (∃ t, exec .increment moves = .next t ∧ t.zf ≠ moves.zf) ∧ (∃ t, exec (.compare 0) moves = .next t ∧ t.cf ≠ moves.cf) ∧
    (∃ t, exec (.store8 0) moves = .next t ∧ t.mem ≠ moves.mem) ∧ (∃ t, exec (.syscall 1) moves = .next t ∧ t.out ≠ moves.out) :=
  ⟨⟨_, rfl, by decide⟩, ⟨_, rfl, by decide⟩, ⟨_, rfl, by decide⟩, ⟨_, rfl, by decide⟩, ⟨_, rfl, by decide⟩, ⟨_, rfl, by decide⟩,
    ⟨_, rfl, by decide⟩, ⟨_, rfl, by decide⟩⟩

/-- A step that emits, with output already there. -/
theorem witness_OutputIsAppendedAndNeverRead :
    step { text 7 with exe := [0x2C, 0, 0, 0, 1], out := [0x41] } =
      .next { text 7 with exe := [0x2C, 0, 0, 0, 1], pc := 5, out := [0x41, 0x37] } :=
  next_of_after (by decide)

/-- A `Nop`, a `Data` whose payload ends exactly at the end of `EXE`, and one a byte short. -/
theorem witness_NopAndDataAreSkipped : OpcodeMap.standard.Legal ∧ (machine [0x00, 0x01] 16 0 .equal).status = .running ∧
    (machine [0x00, 0x01] 16 0 .equal).exe.drop (machine [0x00, 0x01] 16 0 .equal).pc.toNat = OpcodeMap.standard.byte .nop :: [0x01] ∧
    (machine [0x2D, 0, 0, 0, 2, 0x41, 0x42] 16 0 .equal).exe.drop 0 =
      OpcodeMap.standard.byte .data :: 0#8 :: 0#8 :: 0#8 :: 2#8 :: [0x41, 0x42] ∧
    (0#8 ++ 0#8 ++ 0#8 ++ 2#8 : Word).toNat ≤ ([0x41, 0x42] : List Byte).length ∧
    ([0x41] : List Byte).length < (0#8 ++ 0#8 ++ 0#8 ++ 2#8 : Word).toNat :=
  ⟨OpcodeMap.legal_standard, by decide, by decide, by decide, by decide, by decide⟩

theorem witness_HaltIsTerminal : otherMap.Legal ∧ (State.construct [0xFE] 16 0 .equal otherMap).status = .running ∧
    (State.construct [0xFE] 16 0 .equal otherMap).exe.drop (State.construct [0xFE] 16 0 .equal otherMap).pc.toNat =
      otherMap.byte .halt :: [] :=
  ⟨otherMap_legal, by decide, by decide⟩

/-- The last address each width may load or store, and the first it may not, with `MEM_SIZE = 32`. -/
theorem witness_AbsoluteLoads_and_AbsoluteStores :
    (31 : Word).toNat + 1 ≤ moves.memSize.toNat ∧ moves.memSize.toNat < (32 : Word).toNat + 1 ∧
    (30 : Word).toNat + 2 ≤ moves.memSize.toNat ∧ moves.memSize.toNat < (31 : Word).toNat + 2 ∧
    (28 : Word).toNat + 4 ≤ moves.memSize.toNat ∧ moves.memSize.toNat < (29 : Word).toNat + 4 := by decide

/-- Side registers holding those addresses. -/
theorem witness_RegisterIndirectLoads_and_Stores :
    { moves with regs := [28, 31] }.regs[(0 : RegIdx).toNat]? = some 28 ∧ (28 : Word).toNat + 4 ≤ moves.memSize.toNat ∧
    { moves with regs := [28, 31] }.regs[(1 : RegIdx).toNat]? = some 31 ∧ (31 : Word).toNat + 1 ≤ moves.memSize.toNat ∧
    (30 : Word).toNat + 2 ≤ moves.memSize.toNat ∧ moves.memSize.toNat < (31 : Word).toNat + 2 ∧
    moves.memSize.toNat < (31 : Word).toNat + 4 ∧ moves.memSize.toNat < (32 : Word).toNat + 1 ∧
    (AddrMode.indirect 0).effAddr { moves with regs := [28, 31] } = .ok 28 :=
  ⟨by decide, by decide, by decide, by decide, by decide, by decide, by decide, by decide, rfl⟩

theorem witness_LiteralMoves : (1 : RegIdx).toNat < moves.nreg ∧ ¬ (2 : RegIdx).toNat < moves.nreg := by decide

/-- The hypothesis of SwapExchanges, IncrementAndDecrementRegister, AddSubMul, CompareSetsTheComparisonFlag, JumpsAfterACompare and
DivideWithRemainder: the index names a register, at both ends of its range. -/
theorem witness_registers_hold_a_word : moves.regs[(0 : RegIdx).toNat]? = some 16 ∧ moves.regs[(1 : RegIdx).toNat]? = some 30 ∧
    moves.regs[(2 : RegIdx).toNat]? = none := by decide

theorem witness_NarrowLoadsOfAStoredWord : (28 : Word).toNat + 4 ≤ moves.memSize.toNat := by decide

theorem witness_StackPointerMoves : exec .readStackPointer (stack 0 256) = .next (stack 256 256) := next_of_after (by decide)

theorem witness_JumpAndTheNextFetch : (hello 0).Inv ∧ (hello 0).status = .running ∧ (hello 0).exe.length ≤ (38 : Word).toNat ∧
    ¬ (hello 0).exe.length ≤ (37 : Word).toNat :=
  ⟨⟨by decide, by decide, by decide, by decide, OpcodeMap.legal_standard⟩, by decide, by decide, by decide⟩

/-- The stack pointer at the bounds of the three clauses of a push: the lowest and highest it may be, and one beyond. -/
theorem witness_CallPushesTheReturnAddress_and_PushInstructions :
    (4 ≤ (stack 1 4).sp.toNat ∧ (stack 1 4).sp.toNat ≤ (stack 1 4).memSize.toNat) ∧
    (4 ≤ (stack 1 256).sp.toNat ∧ (stack 1 256).sp.toNat ≤ (stack 1 256).memSize.toNat) ∧
    (stack 1 3).sp.toNat < 4 ∧ (4 ≤ (stack 1 257).sp.toNat ∧ (stack 1 257).memSize.toNat < (stack 1 257).sp.toNat) ∧
    (stack 1 4).regs[(1 : RegIdx).toNat]? = some 0 := by decide

theorem witness_PopInstructions : (stack 0 252).sp.toNat + 4 ≤ (stack 0 252).memSize.toNat ∧
    (stack 0 253).memSize.toNat < (stack 0 253).sp.toNat + 4 ∧ (1 : RegIdx).toNat < (stack 0 252).nreg := by decide

theorem witness_StackSymmetry :
    (stack 7 256).push 0x11223344 = .ok { stacked 252 with acc := 7 } ∧
    exec .push (stack 0x11223344 256) = .next { stacked 252 with acc := 0x11223344 } ∧
    (stack 0x11223344 256).status = .running ∧ { stacked 252 with acc := 0x11223344 }.status = .running ∧
    (stacked 252).sp = { stacked 252 with acc := 7 }.sp ∧ (stacked 252).memSize = { stacked 252 with acc := 7 }.memSize ∧
    ∀ k < 4, (stacked 252).mem.read ((stacked 252).sp.toNat + k) = { stacked 252 with acc := 7 }.mem.read (252 + k) :=
  ⟨rfl, next_of_after (by decide), by decide, by decide, by decide, by decide, by decide⟩

/-- The same for the other two pushes, and for the return address of a `Call`. -/
theorem witness_StackSymmetry_other_pushes :
    exec (.pushRegister 0) { stack 0 256 with regs := [0x11223344, 0] } = .next { stacked 252 with regs := [0x11223344, 0] } ∧
    { stack 0 256 with regs := [0x11223344, 0] }.regs[(0 : RegIdx).toNat]? = some 0x11223344 ∧
    exec (.call 16) { stack 0 256 with pc := 0x11223344 } = .next { stacked 252 with pc := 16 } ∧
    (stacked 252).status = .running ∧ { stacked 252 with pc := 16 }.status = .running ∧
    (stacked 252).sp = { stacked 252 with pc := 16 }.sp ∧ (stacked 252).memSize = { stacked 252 with pc := 16 }.memSize ∧
    ∀ k < 4, (stacked 252).mem.read ((stacked 252).sp.toNat + k) = { stacked 252 with pc := 16 }.mem.read (252 + k) :=
  ⟨next_of_after (by decide), by decide, next_of_after (by decide), by decide, by decide, by decide, by decide, by decide⟩

theorem performs_cons {i : Instr} {is : List Instr} {s u t : State} (h : exec i s = .next u) (hu : u.status = .running)
    (ht : Performs is u t) : Performs (i :: is) s t :=
  ⟨u, h, fun ⟨_, hc⟩ => (nomatch hu.symm.trans hc), ht⟩

/-- A push of `acc` around a push of a side register, each taken back. -/
theorem witness_StackSymmetry_balanced :
    Balanced [.push, .pushRegister 0, .popRegister 0, .pop] ∧
    ∃ t, Performs [.push, .pushRegister 0, .popRegister 0, .pop] (stack 7 256) t :=
  ⟨Balanced.acc (Balanced.reg 0 Balanced.nil Balanced.nil) Balanced.nil,
    ⟨_, performs_cons rfl rfl (performs_cons rfl rfl (performs_cons rfl rfl (performs_cons rfl rfl rfl)))⟩⟩

theorem witness_DivideWithRemainder : (arith 17 5).regs[(0 : RegIdx).toNat]? = some 5 ∧ (5 : Word).toNat ≠ 0 ∧
    (arith 7 0).regs[(0 : RegIdx).toNat]? = some 0 ∧ (0 : Word).toNat = 0 := by decide

theorem witness_ConditionalJumpShape : { hello 0 with status := .running }.status = .running ∧
    (hello 0).exe.length ≤ (38 : Word).toNat := by decide

theorem witness_ConditionalJumpTruthTables : (atTen .less false).cf = .less ∧ (atTen .equal false).cf = .equal ∧
    (atTen .greater false).cf = .greater ∧ (atTen .equal true).zf = true ∧ (atTen .equal false).zf = false := by decide

/-- Another state with the comparison flag a `Compare` left. -/
theorem witness_JumpsAfterACompare : (arith 1 2).regs[(0 : RegIdx).toNat]? = some 2 ∧
    exec (.compare 0) (arith 1 2) = .next { arith 1 2 with cf := .less } ∧
    (atTen .less true).cf = { arith 1 2 with cf := .less }.cf :=
  ⟨by decide, next_of_after (by decide), by decide⟩

theorem witness_CopyCodeMemoryCopies :
    ((30 : Word).toNat + (8 : Word).toNat ≤ (hello 24).exe.length ∧
      (hello 24).acc.toNat + (8 : Word).toNat ≤ (hello 24).memSize.toNat) ∧
    (hello 0).exe.length < (30 : Word).toNat + (9 : Word).toNat ∧
    ((30 : Word).toNat + (8 : Word).toNat ≤ (hello 25).exe.length ∧
      (hello 25).memSize.toNat < (hello 25).acc.toNat + (8 : Word).toNat) := by decide

theorem witness_SyscallDispatch : (text 10).cstr (text 10).acc = .ok [0x48, 0x69] ∧
    (text 13).cstr (text 13).acc = .error (.stringInvalidUtf8 13) ∧ 3 ≤ (3 : Word).toNat ∧ ¬ 3 ≤ (2 : Word).toNat :=
  ⟨rfl, rfl, by decide, by decide⟩

/-- `MEM_SIZE = 16`: an address outside, the last byte not a terminator, a string of two bytes, an empty one. -/
theorem witness_StringsEndAtTheFirstZeroByte :
    (text 0).memSize.toNat ≤ (16 : Word).toNat ∧ (15 : Word).toNat < (text 0).memSize.toNat ∧
    (∀ k, (15 : Word).toNat + k < (text 0).memSize.toNat → (text 0).mem.read ((15 : Word).toNat + k) ≠ 0) ∧
    ((10 : Word).toNat + [0x48#8, 0x69#8].length < (text 0).memSize.toNat ∧
      (text 0).mem.read ((10 : Word).toNat + [0x48#8, 0x69#8].length) = 0) ∧
    (∀ k b, [0x48#8, 0x69#8][k]? = some b → (text 0).mem.read ((10 : Word).toNat + k) = b ∧ b ≠ 0) := by
  refine ⟨by decide, by decide, fun k hk => ?_, by decide, fun k b hb => ?_⟩
  · have h : 15 + k < 16 := hk
    obtain rfl : k = 0 := by omega
    decide
  · match k, hb with
    | 0, hb => injection hb with hb; subst hb; decide
    | 1, hb => injection hb with hb; subst hb; decide
    | k + 2, hb => cases hb

theorem witness_Utf8ValidityIsTheTable : (∀ b ∈ ([0x00, 0x7F] : List Byte), b.toNat < 0x80) ∧
    Utf8Sequence [0xF4, 0x8F, 0xBF, 0xBF] ∧ Utf8Sequence [0xED, 0x9F, 0xBF] ∧ Utf8Sequence [0xC2, 0x80] ∧ Utf8Sequence [0x7F] ∧
    ¬ Utf8Sequence [0xC1, 0x80] := by
  refine ⟨by decide, ?_, ?_, ?_, ?_, ?_⟩ <;> simp [Utf8Sequence]

theorem witness_DecimalSpellsTheUnsignedValue : (decimal 0).head? = some 0x30 := by decide

theorem witness_PatchingAJumpPlaceholder :
    ([.set 5, .jumpNonzero 5] : List Instr)[1]? = some (.jumpNonzero 5) ∧
    (∀ m, Builder.withTarget m Builder.sentinel ≠ some (.jumpNonzero 5)) ∧
    Builder.withTarget .jumpNonzero Builder.sentinel = some (.jumpNonzero Builder.sentinel) ∧
    ([.set 5, .jumpNonzero Builder.sentinel] : List Instr)[1]? = some (.jumpNonzero Builder.sentinel) ∧
    (((([.set 5, .jumpNonzero Builder.sentinel] : List Instr).take 1).map Instr.size).sum < 2 ^ 32 - 1) :=
  ⟨by decide, by intro m; cases m <;> decide, by decide, by decide, by decide⟩

end Sys2Proof.Tests
end

/-! SUPPORT. The parameters of a Machine, `EXE`, `MEM_SIZE`, `NREG` and `OPC`, stay what they were: per effect, per execute phase, per
step and per run (20_memory.md R52, 10_state.md R34). -/

namespace Sys2Proof.Machine

/-- `t` has the parameters of `s` (10_state.md R34). -/
structure SameParams (s t : State) : Prop where
  exe : t.exe = s.exe
  memSize : t.memSize = s.memSize
  nreg : t.nreg = s.nreg
  opc : t.opc = s.opc

namespace SameParams

theorem refl (s : State) : SameParams s s := ⟨rfl, rfl, rfl, rfl⟩

theorem trans {s t u : State} (h : SameParams s t) (h' : SameParams t u) : SameParams s u :=
  ⟨h'.exe.trans h.exe, h'.memSize.trans h.memSize, h'.nreg.trans h.nreg, h'.opc.trans h.opc⟩

theorem conj {s t : State} (h : SameParams s t) :
    t.exe = s.exe ∧ t.memSize = s.memSize ∧ t.nreg = s.nreg ∧ t.opc = s.opc :=
  ⟨h.exe, h.memSize, h.nreg, h.opc⟩

/-! ### One update of the state -/

theorem setAcc (s : State) (v : Word) : SameParams s (s.setAcc v) := ⟨rfl, rfl, rfl, rfl⟩
theorem setPc (s : State) (v : Word) : SameParams s (s.setPc v) := ⟨rfl, rfl, rfl, rfl⟩
theorem setSp (s : State) (v : Word) : SameParams s (s.setSp v) := ⟨rfl, rfl, rfl, rfl⟩
theorem setZf (s : State) (b : Bool) : SameParams s (s.setZf b) := ⟨rfl, rfl, rfl, rfl⟩
theorem setCf (s : State) (c : Comparison) : SameParams s (s.setCf c) := ⟨rfl, rfl, rfl, rfl⟩
theorem setStatus (s : State) (v : Status) : SameParams s (s.setStatus v) := ⟨rfl, rfl, rfl, rfl⟩
theorem setMem (s : State) (m : Memory) : SameParams s (s.setMem m) := ⟨rfl, rfl, rfl, rfl⟩
theorem setReg (s : State) (r : RegIdx) (v : Word) : SameParams s (s.setReg r v) := ⟨rfl, rfl, State.setReg_nreg s r v, rfl⟩
theorem emit (s : State) (bs : List Byte) : SameParams s (s.emit bs) := ⟨rfl, rfl, rfl, rfl⟩
theorem raise (s : State) (c : Failure) : SameParams s (s.raise c) := setStatus s _
theorem advance (s : State) (i : Instr) : SameParams s (s.advance i) := setPc s _
theorem pushed (s : State) (v : Word) : SameParams s (s.pushed v) := (setMem s _).trans (setSp _ _)

/-! ### The shared shapes of effects -/

theorem of_loadEffect {mode : AddrMode} {n : Nat} {s t : State} (h : LoadEffect mode n s t) : SameParams s t := by
  obtain ⟨a, -, -, rfl⟩ := h
  exact setAcc s _

theorem of_storeEffect {mode : AddrMode} {n : Nat} {s t : State} (h : StoreEffect mode n s t) : SameParams s t := by
  obtain ⟨a, -, -, rfl⟩ := h
  exact setMem s _

theorem of_pushEffect {v : Word} {s t : State} (h : PushEffect v s t) : SameParams s t := by
  obtain ⟨-, -, rfl⟩ := h
  exact pushed s v

theorem of_jump {s t : State} {c : Bool} {a : Word} (h : t = if c then s.setPc a else s) : SameParams s t := by
  subst h
  cases c
  · exact refl s
  · exact setPc s a

theorem of_syscall {index : Word} {s t : State} (h : Effect (.syscall index) s t) : SameParams s t := by
  obtain ⟨-, rfl⟩ | ⟨bytes, -, ⟨-, rfl⟩ | ⟨-, rfl⟩⟩ := h <;> exact emit s _

end SameParams

open SameParams in
/-- No effect of an instruction writes a parameter. -/
theorem effect_sameParams {i : Instr} {s t : State} (h : Effect i s t) : SameParams s t := by
  cases i with
  | nop | data _ _ => obtain rfl : t = s := h; exact refl t
  | load8 _ | load16 _ | load32 _ | deref8 _ | deref16 _ | deref32 _ => exact of_loadEffect h
  | store8 _ | store16 _ | store32 _ | write8 _ | write16 _ | write32 _ => exact of_storeEffect h
  | jumpEqual _ | jumpNotEqual _ | jumpGreater _ | jumpLess _ | jumpGreaterEqual _ | jumpLessEqual _ | jumpZero _
  | jumpNonzero _ => exact of_jump h
  | halt => obtain rfl : t = _ := h; exact setStatus s _
  | set _ | readStackPointer => obtain rfl : t = _ := h; exact setAcc s _
  | writeStackPointer => obtain rfl : t = _ := h; exact setSp s _
  | jump _ => obtain rfl : t = _ := h; exact setPc s _
  | increment | decrement => obtain rfl : t = _ := h; exact (setAcc s _).trans (setZf _ _)
  | setRegister _ _ => obtain ⟨-, rfl⟩ := h; exact setReg s _ _
  | add _ | sub _ | mul _ => obtain ⟨v, -, rfl⟩ := h; exact setAcc s _
  | compare _ => obtain ⟨v, -, rfl⟩ := h; exact setCf s _
  | incrementRegister _ | decrementRegister _ => obtain ⟨v, -, rfl⟩ := h; exact (setReg s _ _).trans (setZf _ _)
  | swap _ => obtain ⟨v, -, rfl⟩ := h; exact (setReg s _ _).trans (setAcc _ _)
  | div _ => obtain ⟨v, -, -, rfl⟩ := h; exact (setReg s _ _).trans (setAcc _ _)
  | push => exact of_pushEffect h
  | pushRegister _ => obtain ⟨v, -, hpush⟩ := h; exact of_pushEffect hpush
  | call _ => obtain ⟨u, hpush, rfl⟩ := h; exact (of_pushEffect hpush).trans (setPc u _)
  | ret => obtain ⟨-, rfl⟩ := h; exact (setSp s _).trans (setPc _ _)
  | pop => obtain ⟨-, rfl⟩ := h; exact (setSp s _).trans (setAcc _ _)
  | popRegister _ => obtain ⟨-, -, rfl⟩ := h; exact (setSp s _).trans (setReg _ _ _)
  | copyCodeMemory _ _ => obtain ⟨-, -, rfl⟩ := h; exact setMem s _
  | syscall _ => exact of_syscall h

theorem exec_sameParams {i : Instr} {s t : State} (h : exec i s = .next t) : SameParams s t := by
  obtain ⟨u, hu, hcase⟩ := exec_cases i s
  obtain rfl : t = u := by simpa [h] using hu
  rcases hcase with ⟨c, rfl⟩ | heffect
  · exact .raise s c
  · exact effect_sameParams heffect

theorem step_sameParams {s t : State} (h : step s = .next t) : SameParams s t := by
  obtain ⟨-, ⟨c, -, rfl⟩ | ⟨i, -, ⟨c, rfl⟩ | heffect⟩⟩ := step_cases h
  · exact .raise s c
  · exact (SameParams.advance s i).trans (.raise _ c)
  · exact (SameParams.advance s i).trans (effect_sameParams heffect)

theorem runFor_sameParams (s : State) (n : Nat) : SameParams s (s.runFor n) := by
  induction n generalizing s with
  | zero => exact .refl s
  | succ n ih =>
    rw [State.runFor]
    split
    · next t ht => exact (step_sameParams ht).trans (ih t)
    · exact .refl s
    · exact .refl s

/-- Settles O15: `SameParams` holds of every effect and every raised failure, so of `exec` and `step`, and of a run by induction on
its bound. -/
theorem programMemoryIsImmutable : Obligations.ProgramMemoryIsImmutable :=
  ⟨fun _ _ _ h => (exec_sameParams h).conj, fun _ _ h => (step_sameParams h).conj, fun s n => (runFor_sameParams s n).conj⟩

end Sys2Proof.Machine

/-! The decode phase of a step, and the bounded run: it is a repetition of steps, and a terminal state is where it stays
(40_step_cycle.md R132, R135). -/

namespace Sys2Proof.Machine

/-- Settles O9: what decoding answers decides `fetchDecode`, and that decides the step. -/
theorem decodePhaseOfAStep : Obligations.DecodePhaseOfAStep := by
  intro s hrunning hinside
  have hphase := State.fetchDecode_inside hinside
  refine ⟨fun hdecode => ?truncated, fun op hdecode => ?unknownOpcode, fun i hdecode => ?instr⟩ <;> rw [hdecode] at hphase
  case truncated => exact step_of_failed_fetch hrunning hphase
  case unknownOpcode => exact step_of_failed_fetch hrunning hphase
  case instr => exact step_of_decoded hrunning hphase

namespace State

/-! ### Equations of the bounded run -/

theorem runFor_succ_of_next {s t : State} (h : step s = .next t) (n : Nat) : s.runFor (n + 1) = t.runFor n := by
  rw [runFor, h]

theorem runFor_of_no_next {s : State} (h : ∀ t, step s ≠ .next t) (n : Nat) : s.runFor n = s := by
  cases n with
  | zero => rfl
  | succ n =>
    rw [runFor]
    split
    · next t ht => exact absurd ht (h t)
    · rfl
    · rfl

theorem runFor_of_terminal {s : State} (h : s.status ≠ .running) (n : Nat) : s.runFor n = s :=
  runFor_of_no_next (fun _ ht => h (step_cases ht).1) n

theorem runFor_add (s : State) (n m : Nat) : s.runFor (n + m) = (s.runFor n).runFor m := by
  induction n generalizing s with
  | zero => rw [Nat.zero_add, runFor]
  | succ n ih =>
    by_cases hnext : ∃ t, step s = .next t
    · obtain ⟨t, ht⟩ := hnext
      rw [Nat.succ_add, runFor_succ_of_next ht, runFor_succ_of_next ht, ih]
    · have hstuck : ∀ t, step s ≠ .next t := not_exists.1 hnext
      simp only [runFor_of_no_next hstuck]

/-! ### How a run ends -/

theorem runFor_add_of_terminal {s : State} {n : Nat} (h : (s.runFor n).status ≠ .running) (m : Nat) :
    s.runFor (n + m) = s.runFor n := by
  rw [runFor_add, runFor_of_terminal h]

/-- A run reaches at most one terminal state. -/
theorem runFor_eq_of_terminal {s : State} {n m : Nat} (hn : (s.runFor n).status ≠ .running)
    (hm : (s.runFor m).status ≠ .running) : s.runFor n = s.runFor m :=
  calc s.runFor n = s.runFor (n + m) := (runFor_add_of_terminal hn m).symm
    _ = s.runFor (m + n) := by rw [Nat.add_comm]
    _ = s.runFor m := runFor_add_of_terminal hm n

theorem HasFailed.not_running {s : State} (h : s.HasFailed) : s.status ≠ .running := by
  obtain ⟨c, hc⟩ := h
  simp [hc]

theorem HasFailed.not_halted {s : State} (h : s.HasFailed) : s.status ≠ .halted := by
  obtain ⟨c, hc⟩ := h
  simp [hc]

theorem not_running_of_halted {s : State} (h : s.status = .halted) : s.status ≠ .running := by
  simp [h]

theorem halted_or_hasFailed_of_not_running {s : State} (h : s.status ≠ .running) : s.status = .halted ∨ s.HasFailed := by
  cases hs : s.status with
  | running => exact absurd hs h
  | halted => exact .inl rfl
  | failed c => exact .inr ⟨c, hs⟩

theorem halts_or_fails_or_hangs (s : State) : s.Halts ∨ (∃ n, (s.runFor n).HasFailed) ∨ s.Hangs := by
  by_cases hhangs : s.Hangs
  · exact .inr (.inr hhangs)
  · obtain ⟨n, hn⟩ := not_forall.1 hhangs
    rcases halted_or_hasFailed_of_not_running hn with hhalted | hfailed
    · exact .inl ⟨n, hhalted⟩
    · exact .inr (.inl ⟨n, hfailed⟩)

theorem not_halts_and_fails (s : State) : ¬ (s.Halts ∧ ∃ n, (s.runFor n).HasFailed) := by
  rintro ⟨⟨n, hhalted⟩, m, hfailed⟩
  have hsame : s.runFor n = s.runFor m := runFor_eq_of_terminal (not_running_of_halted hhalted) hfailed.not_running
  exact hfailed.not_halted (hsame ▸ hhalted)

theorem Hangs.not_halts_or_fails {s : State} (h : s.Hangs) : ¬ (s.Halts ∨ ∃ n, (s.runFor n).HasFailed) := by
  rintro (⟨n, hhalted⟩ | ⟨n, hfailed⟩)
  · exact not_running_of_halted hhalted (h n)
  · exact hfailed.not_running (h n)

end State

/-- Settles O14: a run is unfolded one step at a time, by `runFor_add` it stays in a terminal state, and there it is halted or
failed and not both. -/
theorem runRepeatsTheStepUntilTerminal : Obligations.RunRepeatsTheStepUntilTerminal := fun s =>
  ⟨fun n _ hnext => State.runFor_succ_of_next hnext n,
    fun _ m hterminal => State.runFor_add_of_terminal hterminal m,
    s.halts_or_fails_or_hangs,
    s.not_halts_and_fails,
    fun ⟨hhangs, hends⟩ => hhangs.not_halts_or_fails hends⟩

end Sys2Proof.Machine

/-! The eight conditional jumps: each is `jumpIf` under a condition on one flag, and a `pc` outside the program fails the next fetch
(44_conditional_jumps.md R220 to R228, 40_step_cycle.md R131). -/

namespace Sys2Proof.Machine

/-! ### The execute phase of each jump -/

theorem jumpIf_eq (s : State) (cond : Bool) (addr : Word) :
    s.jumpIf cond addr = .next (if cond then { s with pc := addr } else s) := rfl

theorem exec_jumpEqual (addr : Word) (s : State) : exec (.jumpEqual addr) s = s.jumpIf (condEqual s.cf) addr := rfl

theorem exec_jumpNotEqual (addr : Word) (s : State) : exec (.jumpNotEqual addr) s = s.jumpIf (condNotEqual s.cf) addr := rfl

theorem exec_jumpGreater (addr : Word) (s : State) : exec (.jumpGreater addr) s = s.jumpIf (condGreater s.cf) addr := rfl

theorem exec_jumpLess (addr : Word) (s : State) : exec (.jumpLess addr) s = s.jumpIf (condLess s.cf) addr := rfl

theorem exec_jumpGreaterEqual (addr : Word) (s : State) :
    exec (.jumpGreaterEqual addr) s = s.jumpIf (condGreaterEqual s.cf) addr := rfl

theorem exec_jumpLessEqual (addr : Word) (s : State) :
    exec (.jumpLessEqual addr) s = s.jumpIf (condLessEqual s.cf) addr := rfl

theorem exec_jumpZero (addr : Word) (s : State) : exec (.jumpZero addr) s = s.jumpIf s.zf addr := rfl

theorem exec_jumpNonzero (addr : Word) (s : State) : exec (.jumpNonzero addr) s = s.jumpIf (!s.zf) addr := rfl

/-! ### The shape they share -/

/-- `mk` is a jump taken under a condition that reads `flag` alone (44_conditional_jumps.md R220). -/
def JumpsOn {α : Type} (flag : State → α) (mk : Word → Instr) : Prop :=
  ∃ cond : α → Bool, ∀ (s : State) (addr : Word),
    exec (mk addr) s = .next (if cond (flag s) then { s with pc := addr } else s)

theorem JumpsOn.of_jumpIf {α : Type} {flag : State → α} {mk : Word → Instr} (cond : α → Bool)
    (h : ∀ addr s, exec (mk addr) s = s.jumpIf (cond (flag s)) addr) : JumpsOn flag mk :=
  ⟨cond, fun s addr => (h addr s).trans (jumpIf_eq s _ addr)⟩

theorem comparisonJumps_jumpOn_cf :
    ∀ mk ∈ [Instr.jumpEqual, .jumpNotEqual, .jumpGreater, .jumpLess, .jumpGreaterEqual, .jumpLessEqual],
      JumpsOn State.cf mk := by
  simp only [List.forall_mem_cons, List.not_mem_nil, false_implies, implies_true, and_true]
  exact ⟨.of_jumpIf condEqual exec_jumpEqual, .of_jumpIf condNotEqual exec_jumpNotEqual,
    .of_jumpIf condGreater exec_jumpGreater, .of_jumpIf condLess exec_jumpLess,
    .of_jumpIf condGreaterEqual exec_jumpGreaterEqual, .of_jumpIf condLessEqual exec_jumpLessEqual⟩

theorem zeroJumps_jumpOn_zf : ∀ mk ∈ [Instr.jumpZero, .jumpNonzero], JumpsOn State.zf mk := by
  simp only [List.forall_mem_cons, List.not_mem_nil, false_implies, implies_true, and_true]
  exact ⟨.of_jumpIf id exec_jumpZero, .of_jumpIf not exec_jumpNonzero⟩

theorem conditionalJumps_formatW :
    ∀ mk ∈ [Instr.jumpEqual, .jumpNotEqual, .jumpGreater, .jumpLess, .jumpGreaterEqual, .jumpLessEqual, .jumpZero, .jumpNonzero],
      ∀ addr, (mk addr).mnemonic.format = .w ∧ operandBytes (mk addr) = be 4 addr.toNat := by
  simp only [List.forall_mem_cons, List.not_mem_nil, false_implies, implies_true, and_true]
  refine ⟨?_, ?_, ?_, ?_, ?_, ?_, ?_, ?_⟩ <;> exact fun _ => ⟨rfl, rfl⟩

/-! ### The fetch after a taken jump -/

theorem step_outside_program {s : State} (hrunning : s.status = .running) (houtside : s.exe.length ≤ s.pc.toNat) :
    step s = .next (s.raise (.programOutOfBounds s.pc)) :=
  step_of_failed_fetch hrunning (State.fetchDecode_outside houtside)

/-- Settles O41: each jump is `jumpIf` under its own condition on `cf` or `zf`, and a running Machine whose `pc` is outside the
program fails at the fetch. -/
theorem conditionalJumpShape : Obligations.ConditionalJumpShape :=
  ⟨comparisonJumps_jumpOn_cf, zeroJumps_jumpOn_zf, conditionalJumps_formatW,
    fun s addr hrunning houtside => step_outside_program (s := { s with pc := addr }) hrunning houtside⟩

end Sys2Proof.Machine

/-! The stack is symmetric: what a push stores, a pop of the same slot takes back, so push and pop pairs restore `sp` and the registers
(45_stack.md R240, R241, R246). -/

namespace Sys2Proof.Machine

/-! ### A push, and the slot it fills -/

/-- What the three pushes share: `v` stored in the slot below the `sp` of `s`, to which `t.sp` points, and the registers left alone
(45_stack.md R240). -/
structure Stacks (v : Word) (s t : State) : Prop where
  room : 4 ≤ s.sp.toNat
  inside : s.sp.toNat ≤ s.memSize.toNat
  sp : t.sp = s.sp - 4#32
  memSize : t.memSize = s.memSize
  mem : t.mem = s.mem.writeBytes t.sp.toNat (splitData 4 v.toNat)
  acc : t.acc = s.acc
  regs : t.regs = s.regs

/-- `u` has the stack pointer of `t` and the four bytes it points to. -/
structure SameSlot (t u : State) : Prop where
  sp : u.sp = t.sp
  memSize : u.memSize = t.memSize
  bytes : ∀ k < 4, u.mem.read (t.sp.toNat + k) = t.mem.read (t.sp.toNat + k)

theorem SameSlot.top_eq {t u : State} (h : SameSlot t u) : u.top = t.top := by
  have hbytes : u.mem.readBytes t.sp.toNat 4 = t.mem.readBytes t.sp.toNat 4 := by
    refine Memory.readBytes_congr fun c hlow hhigh => ?_
    obtain ⟨k, rfl⟩ := Nat.exists_eq_add_of_le hlow
    exact h.bytes k (by omega)
  rw [State.top, State.top, h.sp, hbytes]

theorem PushEffect.stacks {v : Word} {s t : State} (h : PushEffect v s t) : Stacks v s t := by
  obtain ⟨hroom, hinside, rfl⟩ := h
  exact ⟨hroom, hinside, rfl, rfl, rfl, rfl, rfl⟩

namespace Stacks

variable {v : Word} {s t u : State}

theorem setPc (h : Stacks v s t) (a : Word) : Stacks v s (t.setPc a) :=
  ⟨h.room, h.inside, h.sp, h.memSize, h.mem, h.acc, h.regs⟩

theorem sp_toNat (h : Stacks v s t) : t.sp.toNat + 4 = s.sp.toNat := by
  rw [h.sp, State.pushAddr_toNat h.room]
  exact Nat.sub_add_cancel h.room

theorem sp_add_four (h : Stacks v s t) : t.sp + 4#32 = s.sp := by
  rw [h.sp, BitVec.sub_add_cancel]

theorem top_eq (h : Stacks v s t) : t.top = v := by
  have hbytes : t.mem.readBytes t.sp.toNat 4 = splitData 4 v.toNat := by
    rw [h.mem]
    simpa using s.mem.readBytes_writeBytes t.sp.toNat (splitData 4 v.toNat)
  rw [State.top, hbytes]
  exact ofNat_unbe_wordBytesOf v

/-- Everything at and above the old stack pointer is as it was. -/
theorem read_above (h : Stacks v s t) {a : Nat} (ha : s.sp.toNat ≤ a) : t.mem.read a = s.mem.read a := by
  have hsp := h.sp_toNat
  rw [h.mem, Memory.read_writeBytes_outside _ _ _ _ (by rw [splitData_length]; omega)]

/-- The first sentence of 45_stack.md R246: `pop()` takes back what `push(v)` stored. -/
theorem pop_eq (h : Stacks v s t) (hu : SameSlot t u) : u.pop = .ok (v, u.setSp s.sp) := by
  have hfits : u.sp.toNat + 4 ≤ u.memSize.toNat := by
    rw [hu.sp, hu.memSize, h.memSize, h.sp_toNat]
    exact h.inside
  have htop : u.top = v := hu.top_eq.trans h.top_eq
  have hsp : u.sp + 4#32 = s.sp := by rw [hu.sp, h.sp_add_four]
  calc u.pop = .ok (u.top, u.setSp (u.sp + 4#32)) := State.pop_ok hfits
    _ = .ok (v, u.setSp s.sp) := by rw [htop, hsp]

end Stacks

/-! ### The six instructions -/

/-- `i` pushes `v` in `s`: `acc`, a side register, or the return address (45_stack.md R242, R244; 42_stack_pointer_and_jumps.md
R183). -/
def Pushes (i : Instr) (s : State) (v : Word) : Prop :=
  (i = .push ∧ v = s.acc) ∨ (∃ r, i = .pushRegister r ∧ s.regs[r.toNat]? = some v) ∨ (∃ a, i = .call a ∧ v = s.pc)

theorem Pushes.stacks {i : Instr} {s t : State} {v : Word} (hi : Pushes i s v) (h : Effect i s t) : Stacks v s t := by
  rcases hi with ⟨rfl, rfl⟩ | ⟨r, rfl, hv⟩ | ⟨a, rfl, rfl⟩
  case inl => exact PushEffect.stacks h
  case inr.inl =>
    obtain ⟨w, hw, hpush⟩ := h
    obtain rfl : v = w := Option.some.inj (hv.symm.trans hw)
    exact hpush.stacks
  case inr.inr =>
    obtain ⟨u, hpush, rfl⟩ := h
    exact hpush.stacks.setPc a

section

variable {u w : State} {v : Word}

theorem exec_pop_of_pop (h : u.pop = .ok (v, w)) : exec .pop u = .next (w.setAcc v) := by
  rw [exec, execPop, h, State.orRaise_ok]

theorem exec_ret_of_pop (h : u.pop = .ok (v, w)) : exec .ret u = .next (w.setPc v) := by
  rw [exec, execReturn, h, State.orRaise_ok]

theorem exec_popRegister_of_pop {r : RegIdx} (hr : r.toNat < u.nreg) (h : u.pop = .ok (v, w)) :
    exec (.popRegister r) u = .next (w.setReg r v) := by
  rw [exec, execPopRegister, State.chkReg_ok hr, h, State.orRaise_ok, State.orRaise_ok]

end

/-! ### Balanced sequences -/

theorem State.setAcc_self (s : State) : s.setAcc s.acc = s := rfl

theorem State.setReg_eq_self {s : State} {r : RegIdx} {v : Word} (h : s.regs[r.toNat]? = some v) : s.setReg r v = s := by
  obtain ⟨hr, rfl⟩ := List.getElem?_eq_some_iff.1 h
  rw [State.setReg, List.set_getElem_self]

/-- What a balanced sequence keeps: `sp` and the registers, and everything at and above `sp`, where the words pushed before it lie. -/
structure Restored (s t : State) : Prop where
  sp : t.sp = s.sp
  acc : t.acc = s.acc
  regs : t.regs = s.regs
  memSize : t.memSize = s.memSize
  above : ∀ a, s.sp.toNat ≤ a → t.mem.read a = s.mem.read a

namespace Restored

variable {s t u : State}

theorem refl (s : State) : Restored s s := ⟨rfl, rfl, rfl, rfl, fun _ _ => rfl⟩

theorem trans (h : Restored s t) (h' : Restored t u) : Restored s u where
  sp := h'.sp.trans h.sp
  acc := h'.acc.trans h.acc
  regs := h'.regs.trans h.regs
  memSize := h'.memSize.trans h.memSize
  above a ha := (h'.above a (h.sp ▸ ha)).trans (h.above a ha)

theorem sameSlot (h : Restored t u) : SameSlot t u :=
  ⟨h.sp, h.memSize, fun k _ => h.above (t.sp.toNat + k) (Nat.le_add_right _ k)⟩

/-- A push, a sequence that restores, and `sp` moved back up restore together. -/
theorem around {v : Word} (hpush : Stacks v s t) (h : Restored t u) : Restored s (u.setSp s.sp) where
  sp := rfl
  acc := h.acc.trans hpush.acc
  regs := h.regs.trans hpush.regs
  memSize := h.memSize.trans hpush.memSize
  above a ha := by
    have hsp := hpush.sp_toNat
    exact (h.above a (by omega)).trans (hpush.read_above ha)

/-- `Pop` after a `Push` finds in `acc` the word it takes back. -/
theorem exec_pop (hpush : Stacks s.acc s t) (h : Restored t u) : exec .pop u = .next (u.setSp s.sp) := by
  have hacc : (u.setSp s.sp).acc = s.acc := h.acc.trans hpush.acc
  rw [exec_pop_of_pop (hpush.pop_eq h.sameSlot), ← hacc, State.setAcc_self]

/-- `PopRegister r` after a `PushRegister r` finds in the register the word it takes back. -/
theorem exec_popRegister {v : Word} {r : RegIdx} (hv : s.regs[r.toNat]? = some v) (hpush : Stacks v s t)
    (h : Restored t u) : exec (.popRegister r) u = .next (u.setSp s.sp) := by
  have hregs : (u.setSp s.sp).regs = s.regs := h.regs.trans hpush.regs
  have hvu : (u.setSp s.sp).regs[r.toNat]? = some v := by rw [hregs, hv]
  have hr : r.toNat < u.nreg := (List.getElem?_eq_some_iff.1 hvu).1
  rw [exec_popRegister_of_pop hr (hpush.pop_eq h.sameSlot), State.setReg_eq_self hvu]

end Restored

theorem performs_append {is js : List Instr} {s t : State} (h : Performs (is ++ js) s t) :
    ∃ u, Performs is s u ∧ Performs js u t := by
  induction is generalizing s with
  | nil => exact ⟨s, rfl, h⟩
  | cons i is ih =>
    obtain ⟨w, hw, hn, hrest⟩ := h
    obtain ⟨u, his, hjs⟩ := ih hrest
    exact ⟨u, ⟨w, hw, hn, his⟩, hjs⟩

theorem Balanced.restored {is : List Instr} (hb : Balanced is) {s t : State} (h : Performs is s t) : Restored s t := by
  induction hb generalizing s t with
  | nil =>
    obtain rfl : t = s := h
    exact .refl t
  | acc _ _ ihInner ihRest =>
    obtain ⟨u, hexec, hn, h⟩ := h
    obtain ⟨w, hinner, x, hx, -, hrest⟩ := performs_append h
    have hstacks : Stacks s.acc s u := PushEffect.stacks (effect_of_exec hexec (not_exists.1 hn))
    have hr : Restored u w := ihInner hinner
    obtain rfl : x = w.setSp s.sp := Host.Outcome.next.inj (hx.symm.trans (hr.exec_pop hstacks))
    exact (hr.around hstacks).trans (ihRest hrest)
  | reg r _ _ ihInner ihRest =>
    obtain ⟨u, hexec, hn, h⟩ := h
    obtain ⟨w, hinner, x, hx, -, hrest⟩ := performs_append h
    obtain ⟨v, hv, hpush⟩ : ∃ v, s.regs[r.toNat]? = some v ∧ PushEffect v s u := effect_of_exec hexec (not_exists.1 hn)
    have hstacks := hpush.stacks
    have hr : Restored u w := ihInner hinner
    obtain rfl : x = w.setSp s.sp := Host.Outcome.next.inj (hx.symm.trans (hr.exec_popRegister hv hstacks))
    exact (hr.around hstacks).trans (ihRest hrest)

/-- Settles O35: `Stacks.pop_eq` for the primitives, the same after the effect of each push, and `Restored` by induction on the
balanced sequence. -/
theorem stackSymmetry : Obligations.StackSymmetry := by
  refine ⟨fun s t v hpush u hsp hsize hbytes => ?primitives, fun i s t v _ hi hexec hrun u hsp hsize hbytes => ?instructions,
    fun is s t hb _ hperforms => ?sequences⟩
  case primitives => exact (State.push_inv hpush).stacks.pop_eq ⟨hsp, hsize, hbytes⟩
  case instructions =>
    have heffect : Effect i s t := effect_of_exec hexec fun c hc => nomatch hrun.symm.trans hc
    have hpop : u.pop = .ok (v, u.setSp s.sp) := (Pushes.stacks hi heffect).pop_eq ⟨hsp, hsize, hbytes⟩
    exact ⟨exec_pop_of_pop hpop, fun r hr => exec_popRegister_of_pop hr hpop, exec_ret_of_pop hpop⟩
  case sequences =>
    have h : Restored s t := hb.restored hperforms
    exact ⟨h.sp, h.acc, h.regs⟩

end Sys2Proof.Machine

/-! The check of a register index: it comes before anything else in the instructions with a register operand, and it is the only source
of `RegisterOutOfRange` (60_exceptions.md R295). -/

namespace Sys2Proof.Machine

/-! ### An index without a register fails first -/

theorem fails_of_orRaise {α : Type} {i : Instr} {s : State} {c : Failure} {r : Except Failure α}
    {k : α → Host.Outcome State Fault Refusal} (hr : r = .error c) (hexec : exec i s = s.orRaise r k) : Fails i s c := by
  rw [Fails, hexec, hr]
  rfl

/-- The first thing these instructions do with their operand is to check it: reading or writing a register checks its index. -/
theorem fails_of_index_outside (v : Word) :
    ∀ mk ∈ [Instr.deref8, .deref16, .deref32, .swap, .write8, .write16, .write32, .incrementRegister, .decrementRegister, .add, .sub,
        .mul, .div, .compare, .pushRegister, .popRegister, fun r => .setRegister r v],
      ∀ (s : State) (r : RegIdx), s.nreg ≤ r.toNat → Fails (mk r) s (.registerOutOfRange r) := by
  simp only [List.forall_mem_cons, List.not_mem_nil, false_implies, implies_true, and_true]
  refine ⟨?_, ?_, ?_, ?_, ?_, ?_, ?_, ?_, ?_, ?_, ?_, ?_, ?_, ?_, ?_, fun s r hr => ?popRegister, fun s r hr => ?setRegister⟩
  case popRegister => exact fails_of_orRaise (State.chkReg_error hr) rfl
  case setRegister => exact fails_of_orRaise (State.writeReg_error v hr) rfl
  all_goals exact fun s r hr => fails_of_orRaise (State.readReg_error hr) rfl

/-! ### Nothing else fails for an index -/

/-- Where the answer `o` is a `RegisterOutOfRange`, `s` has no register of that index. -/
def IndexFailuresSound (s : State) (o : Host.Outcome State Fault Refusal) : Prop :=
  ∀ t r, o = .next t → t.status = .failed (.registerOutOfRange r) → s.nreg ≤ r.toNat

theorem State.cstr_error {s : State} {a : Word} {c : Failure} (h : s.cstr a = .error c) :
    c = .memoryOutOfBounds a ∨ c = .stringUnterminated a ∨ c = .stringInvalidUtf8 a := by
  unfold cstr at h
  split at h
  · exact .inl (Except.error.inj h).symm
  · split at h
    · exact .inr (.inl (Except.error.inj h).symm)
    · split at h
      · cases h
      · exact .inr (.inr (Except.error.inj h).symm)

theorem divideWords_error {a d : Word} {c : Failure} (h : divideWords a d = .error c) : c = .divisionByZero := by
  unfold divideWords at h
  split at h
  · exact (Except.error.inj h).symm
  · cases h

namespace IndexFailuresSound

variable {s : State}

theorem of_running {t : State} (h : t.status = .running) : IndexFailuresSound s (.next t) := by
  rintro _ r ⟨⟩ hfailed
  cases h.symm.trans hfailed

theorem raised {c : Failure} (h : ∀ r, c = .registerOutOfRange r → s.nreg ≤ r.toNat) :
    IndexFailuresSound s (.next (s.raise c)) := by
  rintro _ r ⟨⟩ hfailed
  exact h r (Status.failed.inj hfailed)

theorem index_raised {r : RegIdx} (h : s.nreg ≤ r.toNat) : IndexFailuresSound s (.next (s.raise (.registerOutOfRange r))) :=
  raised fun _ hr => Failure.registerOutOfRange.inj hr ▸ h

/-! ### One rule per primitive -/

section

variable {r : RegIdx} {a v : Word} {n : Nat} {kw : Word → Host.Outcome State Fault Refusal}
  {ks : State → Host.Outcome State Fault Refusal}

theorem orRaise_chkReg {k : Unit → Host.Outcome State Fault Refusal} (h : IndexFailuresSound s (k ())) :
    IndexFailuresSound s (s.orRaise (s.chkReg r) k) := by
  rcases State.chkReg_cases rfl with ⟨-, hx⟩ | ⟨hr, hx⟩ <;> rw [hx]
  · exact h
  · exact index_raised hr

theorem orRaise_readReg (h : ∀ v, IndexFailuresSound s (kw v)) : IndexFailuresSound s (s.orRaise (s.readReg r) kw) := by
  rcases State.readReg_cases rfl with ⟨w, -, hx⟩ | ⟨hr, hx⟩ <;> rw [hx]
  · exact h w
  · exact index_raised hr

theorem orRaise_writeReg (h : IndexFailuresSound s (ks (s.setReg r v))) :
    IndexFailuresSound s (s.orRaise (s.writeReg r v) ks) := by
  rcases State.writeReg_cases rfl with ⟨-, hx⟩ | ⟨hr, hx⟩ <;> rw [hx]
  · exact h
  · exact index_raised hr

theorem orRaise_effAddr {mode : AddrMode} (h : ∀ a, IndexFailuresSound s (kw a)) :
    IndexFailuresSound s (s.orRaise (mode.effAddr s) kw) := by
  cases mode with
  | absolute a => exact h a
  | indirect r => exact orRaise_readReg h

theorem orRaise_memRead (h : ∀ v, IndexFailuresSound s (kw v)) : IndexFailuresSound s (s.orRaise (s.memRead a n) kw) := by
  rcases State.memRead_cases rfl with ⟨-, hx⟩ | ⟨-, hx⟩ <;> rw [hx]
  · exact h _
  · exact raised nofun

theorem orRaise_memWrite (h : ∀ m, IndexFailuresSound s (ks (s.setMem m))) :
    IndexFailuresSound s (s.orRaise (s.memWrite a n v) ks) := by
  rcases State.memWrite_cases rfl with ⟨-, hx⟩ | ⟨-, hx⟩ <;> rw [hx]
  · exact h _
  · exact raised nofun

theorem orRaise_exeRead {k : List Byte → Host.Outcome State Fault Refusal} (h : ∀ bytes, IndexFailuresSound s (k bytes)) :
    IndexFailuresSound s (s.orRaise (s.exeRead a n) k) := by
  rcases State.exeRead_cases rfl with ⟨-, hx⟩ | ⟨-, hx⟩ <;> rw [hx]
  · exact h _
  · exact raised nofun

theorem orRaise_push (h : IndexFailuresSound s (ks (s.pushed v))) : IndexFailuresSound s (s.orRaise (s.push v) ks) := by
  rcases State.push_cases rfl with ⟨-, -, hx⟩ | ⟨-, hx⟩ | ⟨-, -, hx⟩ <;> rw [hx]
  · exact h
  · exact raised nofun
  · exact raised nofun

theorem orRaise_pop {k : Word × State → Host.Outcome State Fault Refusal}
    (h : IndexFailuresSound s (k (s.top, s.setSp (s.sp + 4#32)))) : IndexFailuresSound s (s.orRaise s.pop k) := by
  rcases State.pop_cases rfl with ⟨-, hx⟩ | ⟨-, hx⟩ <;> rw [hx]
  · exact h
  · exact raised nofun

theorem orRaise_divideWords {d : Word} {k : Word × Word → Host.Outcome State Fault Refusal}
    (h : ∀ p, IndexFailuresSound s (k p)) : IndexFailuresSound s (s.orRaise (divideWords a d) k) := by
  cases hx : divideWords a d with
  | ok p => exact h p
  | error c =>
    obtain rfl := divideWords_error hx
    exact raised nofun

theorem orRaise_cstr {k : List Byte → Host.Outcome State Fault Refusal} (h : ∀ bytes, IndexFailuresSound s (k bytes)) :
    IndexFailuresSound s (s.orRaise (s.cstr a) k) := by
  cases hx : s.cstr a with
  | ok bytes => exact h bytes
  | error c => obtain rfl | rfl | rfl := State.cstr_error hx <;> exact raised nofun

end

/-! ### The shared shapes of instructions -/

section

variable (hrunning : s.status = .running)
include hrunning

theorem loadAcc (mode : AddrMode) (n : Nat) : IndexFailuresSound s (s.loadAcc mode n) :=
  orRaise_effAddr fun _ => orRaise_memRead fun _ => of_running hrunning

theorem storeAcc (mode : AddrMode) (n : Nat) : IndexFailuresSound s (s.storeAcc mode n) :=
  orRaise_effAddr fun _ => orRaise_memWrite fun _ => of_running hrunning

theorem accOp (r : RegIdx) (f : Word → Word → Word) : IndexFailuresSound s (s.accOp r f) :=
  orRaise_readReg fun _ => of_running hrunning

theorem jumpIf (cond : Bool) (addr : Word) : IndexFailuresSound s (s.jumpIf cond addr) := by
  cases cond <;> exact of_running hrunning

theorem copyCodeMemory (source size : Word) : IndexFailuresSound s (execCopyCodeMemory source size s) := by
  refine orRaise_exeRead fun bytes => ?_
  split
  · exact of_running hrunning
  · exact raised nofun

theorem syscall (index : Word) : IndexFailuresSound s (execSyscall index s) := by
  unfold execSyscall
  split
  · exact orRaise_cstr fun _ => of_running hrunning
  · split
    · exact of_running hrunning
    · split
      · exact orRaise_cstr fun _ => of_running hrunning
      · exact raised nofun

end

end IndexFailuresSound

open IndexFailuresSound in
/-- The execute phase of an instruction fails for a register index only when there is no such register. -/
theorem exec_indexFailuresSound (i : Instr) {s : State} (hrunning : s.status = .running) : IndexFailuresSound s (exec i s) := by
  cases i with
  | nop | data _ _ | set _ | readStackPointer | writeStackPointer | increment | decrement => exact of_running hrunning
  | halt => rintro _ r ⟨⟩ ⟨⟩
  | load8 _ | load16 _ | load32 _ => exact loadAcc hrunning (.absolute _) _
  | deref8 _ | deref16 _ | deref32 _ => exact loadAcc hrunning (.indirect _) _
  | store8 _ | store16 _ | store32 _ => exact storeAcc hrunning (.absolute _) _
  | write8 _ | write16 _ | write32 _ => exact storeAcc hrunning (.indirect _) _
  | jump _ | jumpEqual _ | jumpNotEqual _ | jumpGreater _ | jumpLess _ | jumpGreaterEqual _ | jumpLessEqual _ | jumpZero _
  | jumpNonzero _ => exact jumpIf hrunning _ _
  | add _ | sub _ | mul _ => exact accOp hrunning _ _
  | compare _ => exact orRaise_readReg fun _ => of_running hrunning
  | setRegister _ _ => exact orRaise_writeReg (of_running hrunning)
  | swap _ | incrementRegister _ | decrementRegister _ => exact orRaise_readReg fun _ => orRaise_writeReg (of_running hrunning)
  | div _ => exact orRaise_readReg fun _ => orRaise_divideWords fun _ => orRaise_writeReg (of_running hrunning)
  | push | call _ => exact orRaise_push (of_running hrunning)
  | pushRegister _ => exact orRaise_readReg fun _ => orRaise_push (of_running hrunning)
  | pop | ret => exact orRaise_pop (of_running hrunning)
  | popRegister _ => exact orRaise_chkReg (orRaise_pop (of_running hrunning))
  | copyCodeMemory source size => exact copyCodeMemory hrunning source size
  | syscall index => exact syscall hrunning index

/-- Settles O13: the check is the first primitive of each of the 17 instructions, and an index, being a byte, is below 256, so with 256
registers `exec_indexFailuresSound` leaves no index to fail for. -/
theorem registerIndexIsJudgedFirst : Obligations.RegisterIndexIsJudgedFirst := by
  refine ⟨fails_of_index_outside, fun i s t r hnreg hrunning hexec hfailed => ?_⟩
  have houtside : s.nreg ≤ r.toNat := exec_indexFailuresSound i hrunning t r hexec hfailed
  have hbyte : r.toNat < 256 := r.isLt
  omega

end Sys2Proof.Machine

/-! Decoding what the encoder writes, and encoding what the decoder reads, for one instruction (30_encoding.md R103, R106, R110 to
R112). The layout of each format is said once, in `operandBytes_readOperands`. -/

namespace Sys2Proof

/-! ### Sizes -/

theorem Instr.need_le_size (i : Instr) : i.mnemonic.format.need ≤ i.size := Nat.le_add_right _ _

/-- Only `Data` is longer than its format needs. -/
theorem size_readOperands {m : Mnemonic} (h : m.format ≠ .d) (buf : List Byte) : (readOperands m buf).size = m.format.need := by
  cases m with
  | data => exact absurd rfl h
  | _ => rfl

theorem size_readOperands_data (buf : List Byte) : (readOperands .data buf).size = 5 + (wordAt buf 1).toNat := rfl

/-! ### The decoder, once the opcode is known -/

theorem decodeWith_cons {opc : Mnemonic → Byte} {op : Byte} {m : Mnemonic} (hop : mnemonicOf opc op = some m)
    (tail : List Byte) :
    decodeWith opc (op :: tail) =
      if (op :: tail).length < m.format.need then .truncated
      else if (op :: tail).length < (readOperands m (op :: tail)).size then .truncated
      else .instr (readOperands m (op :: tail)) := by
  simp only [decodeWith, hop]

theorem decodeWith_of_fits {opc : Mnemonic → Byte} {op : Byte} {m : Mnemonic} {tail : List Byte}
    (hop : mnemonicOf opc op = some m) (hfits : (readOperands m (op :: tail)).size ≤ (op :: tail).length) :
    decodeWith opc (op :: tail) = .instr (readOperands m (op :: tail)) := by
  have hneed := (readOperands m (op :: tail)).need_le_size
  rw [readOperands_mnemonic] at hneed
  rw [decodeWith_cons hop, if_neg (by omega), if_neg (by omega)]

/-- `decode(encode(i)) == i`, whatever follows, for the byte that spells the mnemonic of `i` (30_encoding.md R112). -/
theorem decodeWith_operandBytes {opc : Mnemonic → Byte} {op : Byte} {i : Instr} (hop : mnemonicOf opc op = some i.mnemonic)
    (hwf : i.wf = true) (rest : List Byte) : decodeWith opc (op :: (operandBytes i ++ rest)) = .instr i := by
  have hread := readOperands_encoded op i hwf rest
  have hlength := operandBytes_length i hwf
  rw [decodeWith_of_fits hop (by rw [hread, List.length_cons, List.length_append]; omega), hread]

/-! ### What is read is what an encoding holds -/

section

variable {op : Byte} {tail : List Byte}

theorem byteAt_one_eq_take (h : 1 ≤ tail.length) : [byteAt (op :: tail) 1] = tail.take 1 := by
  obtain ⟨b, rest, rfl⟩ := List.exists_cons_of_length_pos h
  rfl

theorem wordBytesOf_wordAt_tail (k : Nat) (h : k + 4 ≤ tail.length) :
    wordBytesOf (wordAt (op :: tail) (k + 1)) = (tail.drop k).take 4 :=
  wordBytesOf_wordAt (buf := op :: tail) (by rw [List.length_cons]; omega)

/-- The operand bytes of an instruction that was read are the bytes it was read from (30_encoding.md R86, R103, R110). -/
theorem operandBytes_readOperands {m : Mnemonic} (hneed : m.format.need ≤ (op :: tail).length) :
    operandBytes (readOperands m (op :: tail)) = tail.take ((readOperands m (op :: tail)).size - 1) := by
  have htail : m.format.need - 1 ≤ tail.length := Nat.sub_le_of_le_add hneed
  cases m with
  | nop | halt | readStackPointer | writeStackPointer | ret | increment | decrement | push | pop => rfl
  | setRegister =>
    calc operandBytes (readOperands .setRegister (op :: tail))
        = [byteAt (op :: tail) 1] ++ wordBytesOf (wordAt (op :: tail) 2) := rfl
      _ = tail.take 1 ++ (tail.drop 1).take 4 := by
        rw [byteAt_one_eq_take (Nat.le_trans (by decide) htail), wordBytesOf_wordAt_tail 1 htail]
      _ = tail.take (1 + 4) := List.take_add.symm
  | copyCodeMemory =>
    calc operandBytes (readOperands .copyCodeMemory (op :: tail))
        = wordBytesOf (wordAt (op :: tail) 1) ++ wordBytesOf (wordAt (op :: tail) 5) := rfl
      _ = tail.take 4 ++ (tail.drop 4).take 4 := by
        rw [wordBytesOf_wordAt_tail 0 (Nat.le_trans (by decide) htail), wordBytesOf_wordAt_tail 4 htail, List.drop_zero]
      _ = tail.take (4 + 4) := List.take_add.symm
  | data =>
    have hsize : (readOperands .data (op :: tail)).size - 1 = 4 + (wordAt (op :: tail) 1).toNat := by
      rw [size_readOperands_data]
      omega
    calc operandBytes (readOperands .data (op :: tail))
        = wordBytesOf (wordAt (op :: tail) 1) ++ (tail.drop 4).take (wordAt (op :: tail) 1).toNat := rfl
      _ = tail.take 4 ++ (tail.drop 4).take (wordAt (op :: tail) 1).toNat := by
        rw [wordBytesOf_wordAt_tail 0 htail, List.drop_zero]
      _ = tail.take ((readOperands .data (op :: tail)).size - 1) := by rw [hsize, List.take_add]
  | deref8 | deref16 | deref32 | swap | write8 | write16 | write32 | incrementRegister | decrementRegister | add | sub | mul | div
  | compare | pushRegister | popRegister => exact byteAt_one_eq_take htail
  | load8 | load16 | load32 | store8 | store16 | store32 | set | jump | call | jumpEqual | jumpNotEqual | jumpGreater | jumpLess
  | jumpGreaterEqual | jumpLessEqual | jumpZero | jumpNonzero | syscall => exact wordBytesOf_wordAt_tail 0 htail

end

theorem wf_readOperands {m : Mnemonic} {buf : List Byte} (hfits : (readOperands m buf).size ≤ buf.length) :
    (readOperands m buf).wf = true := by
  cases m with
  | data =>
    have hsize := size_readOperands_data buf
    refine wf_data.2 ?_
    rw [List.length_take, List.length_drop]
    omega
  | _ => rfl

/-- A buffer that decodes begins with the encoding of what it decodes to (30_encoding.md R103, R110). -/
theorem take_size_of_decodeWith {opc : Mnemonic → Byte} {buf : List Byte} {i : Instr} (h : decodeWith opc buf = .instr i) :
    ∃ op, mnemonicOf opc op = some i.mnemonic ∧ i.wf = true ∧ buf.take i.size = op :: operandBytes i := by
  obtain ⟨op, tail, rfl, hop, hread, hneed, hfits⟩ := decodeWith_instr h
  refine ⟨op, hop, ?_, ?_⟩
  · rw [hread] at hfits ⊢
    exact wf_readOperands hfits
  · have hoperands := operandBytes_readOperands hneed
    rw [← hread] at hoperands
    rw [hoperands, ← List.take_succ_cons, Nat.sub_add_cancel i.size_pos]

/-! ### A compiled Program -/

namespace Builder

variable {opc : Mnemonic → Byte}

theorem compileWith_cons {i : Instr} {is : List Instr} {bytes : List Byte} (h : compileWith opc (i :: is) = some bytes) :
    ∃ part rest, encodeWith opc i = some part ∧ compileWith opc is = some rest ∧ bytes = part ++ rest := by
  rw [compileWith] at h
  split at h
  · cases h
  · next part hpart =>
    obtain ⟨rest, hrest, rfl⟩ := Option.map_eq_some_iff.1 h
    exact ⟨part, rest, hpart, hrest, rfl⟩

/-- A compiled Program is the concatenation of the encodings of its instructions in order (30_encoding.md R112). -/
theorem compileWith_parts {prog : List Instr} {bytes : List Byte} (h : compileWith opc prog = some bytes) :
    ∃ parts : List (List Byte),
      List.Forall₂ (fun i part => encodeWith opc i = some part) prog parts ∧ bytes = parts.flatten := by
  induction prog generalizing bytes with
  | nil =>
    obtain rfl : [] = bytes := Option.some.inj h
    exact ⟨[], .nil, rfl⟩
  | cons i is ih =>
    obtain ⟨part, rest, hpart, hrest, rfl⟩ := compileWith_cons h
    obtain ⟨parts, hparts, rfl⟩ := ih hrest
    exact ⟨part :: parts, .cons hpart hparts, rfl⟩

theorem length_of_encodeWith {i : Instr} {part : List Byte} (h : encodeWith opc i = some part) : part.length = i.size :=
  Laws.EncodedSize.of_wf i opc part h

/-- The Executable is as long as the sizes of its instructions say. -/
theorem length_of_compileWith {prog : List Instr} {bytes : List Byte} (h : compileWith opc prog = some bytes) :
    bytes.length = (prog.map Instr.size).sum := by
  induction prog generalizing bytes with
  | nil =>
    obtain rfl : [] = bytes := Option.some.inj h
    rfl
  | cons i is ih =>
    obtain ⟨part, rest, hpart, hrest, rfl⟩ := compileWith_cons h
    rw [List.length_append, length_of_encodeWith hpart, ih hrest, List.map_cons, List.sum_cons]

/-- At the address of instruction `k` a compiled Program goes on with the encoding of instruction `k`. -/
theorem drop_address {prog : List Instr} {bytes : List Byte} {k : Nat} {i : Instr} (h : compileWith opc prog = some bytes)
    (hk : prog[k]? = some i) :
    ∃ part rest, encodeWith opc i = some part ∧ bytes.drop (address prog k) = part ++ rest := by
  induction prog generalizing bytes k with
  | nil => cases hk
  | cons j js ih =>
    obtain ⟨part, rest, hpart, hrest, rfl⟩ := compileWith_cons h
    cases k with
    | zero =>
      obtain rfl : j = i := Option.some.inj hk
      exact ⟨part, rest, hpart, rfl⟩
    | succ k =>
      obtain ⟨part', rest', hpart', hdrop⟩ := ih hrest hk
      have haddress : address (j :: js) (k + 1) = part.length + address js k := by
        rw [length_of_encodeWith hpart, address, List.take_succ_cons, List.map_cons, List.sum_cons, address]
      exact ⟨part', rest', hpart', by rw [haddress, List.drop_length_add_append, hdrop]⟩

end Builder

/-- Under an injective map an encoding decodes back, whatever follows (30_encoding.md R112). -/
theorem decodeWith_encodeWith {opc : Mnemonic → Byte} (hinj : Function.Injective opc) {i : Instr} {bytes : List Byte}
    (h : encodeWith opc i = some bytes) (rest : List Byte) : decodeWith opc (bytes ++ rest) = .instr i := by
  obtain ⟨hwf, rfl⟩ := encodeWith_some.1 h
  exact decodeWith_operandBytes (mnemonicOf_opc hinj _) hwf rest

/-- At the address of instruction `k` a compiled Program decodes to instruction `k` (30_encoding.md R112). -/
theorem decodeWith_drop_address {opc : Mnemonic → Byte} (hinj : Function.Injective opc) {prog : List Instr} {bytes : List Byte}
    {k : Nat} {i : Instr} (h : Builder.compileWith opc prog = some bytes) (hk : prog[k]? = some i) :
    decodeWith opc (bytes.drop (Builder.address prog k)) = .instr i := by
  obtain ⟨part, rest, hpart, hdrop⟩ := Builder.drop_address h hk
  rw [hdrop]
  exact decodeWith_encodeWith hinj hpart rest

/-- Settles O1: one instruction decodes back by its format's layout, and a Program by induction on its instructions, which puts the
encoding of instruction `k` at the sum of the sizes before it. -/
theorem encodingsDecodeBackAndCompose : Obligations.EncodingsDecodeBackAndCompose := by
  refine fun opc hinj => ⟨fun i hwf => ?roundTrip, fun buf i hdecode => ?converse,
    fun prog bytes hcompile => ⟨?parts, ?length, ?addresses⟩⟩
  case roundTrip =>
    have hencode : encodeWith opc i = some (opc i.mnemonic :: operandBytes i) := encodeWith_some.2 ⟨hwf, rfl⟩
    exact ⟨_, hencode, Builder.length_of_encodeWith hencode, decodeWith_encodeWith hinj hencode⟩
  case converse =>
    obtain ⟨op, hop, hwf, htake⟩ := take_size_of_decodeWith hdecode
    exact encodeWith_some.2 ⟨hwf, by rw [htake, opc_of_mnemonicOf hop]⟩
  case parts =>
    obtain ⟨parts, hparts, hbytes⟩ := Builder.compileWith_parts hcompile
    refine ⟨parts, hparts.length_eq.symm, hbytes, fun k i hk => ?_⟩
    obtain ⟨hprog, rfl⟩ := List.getElem?_eq_some_iff.1 hk
    have hlength : k < parts.length := hparts.length_eq ▸ hprog
    exact ⟨parts[k], List.getElem?_eq_getElem hlength, hparts.get hprog hlength⟩
  case length => exact Builder.length_of_compileWith hcompile
  case addresses => exact fun k i hk => decodeWith_drop_address hinj hcompile hk

/-- Settles O5: the bytes that were decoded are the opcode and the operand bytes of the instruction, and those alone decode to it. -/
theorem decodedInstructionLiesInTheBuffer : Obligations.DecodedInstructionLiesInTheBuffer := by
  intro opc buf i hdecode
  obtain ⟨-, -, -, -, -, -, hfits⟩ := decodeWith_instr hdecode
  obtain ⟨op, hop, hwf, htake⟩ := take_size_of_decodeWith hdecode
  refine ⟨hfits, hwf, fun rest => ?_⟩
  rw [htake]
  exact decodeWith_operandBytes hop hwf rest

/-- Settles O6: the encoder refuses what is not well formed, which is a `Data` of another length, and no word is 2^32 or more. -/
theorem encoderRefusesOnlyWrongDataLength : Obligations.EncoderRefusesOnlyWrongDataLength := by
  intro opc
  have hrefused : ∀ i, encodeWith opc i = none ↔
      ∃ length payload, i = .data length payload ∧ length.toNat ≠ payload.length := by
    intro i
    cases i with
    | data length payload => simp [encodeWith, Instr.wf]
    | _ => simp [encodeWith, Instr.wf]
  refine ⟨hrefused, fun length payload hlong => (hrefused _).2 ⟨length, payload, rfl, ?_⟩⟩
  have hword := length.isLt
  omega

/-- Settles O3: the bytes of thirteen instructions, computed both ways. -/
theorem workedEncodings : Obligations.WorkedEncodings := by
  unfold Obligations.WorkedEncodings
  decide

end Sys2Proof

/-! When decoding fails, and with which error (30_encoding.md R101, R104, R105). -/

namespace Sys2Proof

/-- The operand of a buffer that holds a word after its opcode byte: those four bytes, the first one on top (30_encoding.md R88). -/
theorem wordAt_one_cons_four (op a b c d : Byte) (rest : List Byte) :
    wordAt (op :: a :: b :: c :: d :: rest) 1 = a ++ b ++ c ++ d := ofNat_unbe_four a b c d

theorem decodeWith_unknownOpcode_iff {opc : Mnemonic → Byte} {buf : List Byte} {op : Byte} :
    decodeWith opc buf = .unknownOpcode op ↔ ∃ tail, buf = op :: tail ∧ ∀ m, opc m ≠ op := by
  constructor
  · intro h
    unfold decodeWith at h
    split at h
    · cases h
    · next op' tail =>
      split at h
      · next hnone =>
        obtain rfl : op' = op := Decoded.unknownOpcode.inj h
        exact ⟨tail, rfl, mnemonicOf_eq_none.1 hnone⟩
      · split at h
        · cases h
        · split at h <;> cases h
  · rintro ⟨tail, rfl, hnone⟩
    simp only [decodeWith, mnemonicOf_eq_none.2 hnone]

/-- Behind a known opcode, decoding is truncated exactly when what would be read does not fit. -/
theorem decodeWith_truncated_iff_of_mnemonicOf {opc : Mnemonic → Byte} {op : Byte} {m : Mnemonic}
    (hop : mnemonicOf opc op = some m) (tail : List Byte) :
    decodeWith opc (op :: tail) = .truncated ↔
      (op :: tail).length < m.format.need ∨ (op :: tail).length < (readOperands m (op :: tail)).size := by
  rw [decodeWith_cons hop]
  split
  · next hneed => exact iff_of_true rfl (.inl hneed)
  · next hneed =>
    split
    · next hsize => exact iff_of_true rfl (.inr hsize)
    · next hsize => exact iff_of_false nofun (not_or.2 ⟨hneed, hsize⟩)

theorem decodeWith_truncated {opc : Mnemonic → Byte} {buf : List Byte} (h : decodeWith opc buf = .truncated) :
    buf = [] ∨ ∃ m tail, buf = opc m :: tail ∧
      (buf.length < m.format.need ∨ buf.length < (readOperands m buf).size) := by
  cases buf with
  | nil => exact .inl rfl
  | cons op tail =>
    cases hop : mnemonicOf opc op with
    | none => simp [decodeWith, hop] at h
    | some m =>
      exact .inr ⟨m, tail, by rw [opc_of_mnemonicOf hop], (decodeWith_truncated_iff_of_mnemonicOf hop tail).1 h⟩

/-- A buffer long enough for its format and too short for what it would be read as holds a `Data` with a short payload. -/
theorem short_payload_of_size {m : Mnemonic} {op : Byte} {tail : List Byte} (hneed : m.format.need ≤ (op :: tail).length)
    (hsize : (op :: tail).length < (readOperands m (op :: tail)).size) :
    m = .data ∧ ∃ (l3 l2 l1 l0 : Byte) (payload : List Byte),
      tail = l3 :: l2 :: l1 :: l0 :: payload ∧ payload.length < (l3 ++ l2 ++ l1 ++ l0 : Word).toNat := by
  have hformat : m.format = .d := by
    by_contra hformat
    rw [size_readOperands hformat] at hsize
    omega
  obtain rfl : m = .data := by
    cases m with
    | data => rfl
    | _ => cases hformat
  obtain ⟨l3, l2, l1, l0, payload, rfl⟩ : ∃ l3 l2 l1 l0 payload, tail = l3 :: l2 :: l1 :: l0 :: payload := by
    match tail, hneed with
    | l3 :: l2 :: l1 :: l0 :: payload, _ => exact ⟨l3, l2, l1, l0, payload, rfl⟩
  rw [size_readOperands_data, wordAt_one_cons_four] at hsize
  simp only [List.length_cons] at hsize
  exact ⟨rfl, l3, l2, l1, l0, payload, rfl, by omega⟩

/-- A `Data` whose payload is shorter than its length word says is truncated (30_encoding.md R104). -/
theorem decodeWith_short_data {opc : Mnemonic → Byte} (hinj : Function.Injective opc) {l3 l2 l1 l0 : Byte} {payload : List Byte}
    (hshort : payload.length < (l3 ++ l2 ++ l1 ++ l0 : Word).toNat) :
    decodeWith opc (opc .data :: l3 :: l2 :: l1 :: l0 :: payload) = .truncated := by
  refine (decodeWith_truncated_iff_of_mnemonicOf (mnemonicOf_opc hinj .data) _).2 (.inr ?_)
  rw [size_readOperands_data, wordAt_one_cons_four]
  simp only [List.length_cons]
  omega

theorem decodeWith_truncated_iff {opc : Mnemonic → Byte} (hinj : Function.Injective opc) {buf : List Byte} :
    decodeWith opc buf = .truncated ↔
      buf = [] ∨ (∃ m tail, buf = opc m :: tail ∧ buf.length < m.format.need) ∨
      ∃ (l3 l2 l1 l0 : Byte) (payload : List Byte),
        buf = opc .data :: l3 :: l2 :: l1 :: l0 :: payload ∧ payload.length < (l3 ++ l2 ++ l1 ++ l0 : Word).toNat := by
  constructor
  · intro h
    obtain rfl | ⟨m, tail, rfl, hshort⟩ := decodeWith_truncated h
    · exact .inl rfl
    · by_cases hneed : (opc m :: tail).length < m.format.need
      · exact .inr (.inl ⟨m, tail, rfl, hneed⟩)
      · obtain ⟨rfl, l3, l2, l1, l0, payload, rfl, hpayload⟩ :=
          short_payload_of_size (Nat.not_lt.1 hneed) (hshort.resolve_left hneed)
        exact .inr (.inr ⟨l3, l2, l1, l0, payload, rfl, hpayload⟩)
  · rintro (rfl | ⟨m, tail, rfl, hneed⟩ | ⟨l3, l2, l1, l0, payload, rfl, hshort⟩)
    · rfl
    · exact (decodeWith_truncated_iff_of_mnemonicOf (mnemonicOf_opc hinj m) tail).2 (.inl hneed)
    · exact decodeWith_short_data hinj hshort

/-- Settles O4: the opcode byte decides first, then whether what would be read fits, which of the formats only `Data` can fail once its
length word is there. -/
theorem decodeErrorsExactly : Obligations.DecodeErrorsExactly :=
  ⟨fun _ hinj => ⟨fun _ _ => decodeWith_unknownOpcode_iff, fun _ => decodeWith_truncated_iff hinj⟩,
    fun _ => mnemonicOf_eq_none.symm.trans mnemonicOf_opcode_eq_none⟩

/-! ### The rows of the opcode table, one rule per format (30_encoding.md R86) -/

theorem decode_row {m : Mnemonic} (hformat : m.format ≠ .d) {tail : List Byte} (hneed : m.format.need ≤ tail.length + 1) :
    (readOperands m (opcode m :: tail)).size = m.format.need ∧
      decode (opcode m :: tail) = .instr (readOperands m (opcode m :: tail)) := by
  have hsize := size_readOperands hformat (opcode m :: tail)
  exact ⟨hsize, decodeWith_of_fits (mnemonicOf_opc opcode_injective m) (hsize.symm ▸ hneed)⟩

theorem spellsN (m : Mnemonic) {i : Instr} (hformat : m.format = .n := by rfl)
    (hread : ∀ buf, readOperands m buf = i := by intro; rfl) :
    SpellsN (opcode m) i := by
  have hrow : ∀ rest : List Byte, i.size = m.format.need ∧ decode (opcode m :: rest) = .instr i := fun rest => by
    rw [← hread (opcode m :: rest)]
    exact decode_row (by simp [hformat]) (by simp [hformat, Format.need])
  exact ⟨by rw [(hrow []).1, hformat]; rfl, fun rest => (hrow rest).2⟩

theorem spellsW (m : Mnemonic) {mk : Word → Instr} (hformat : m.format = .w := by rfl)
    (hread : ∀ buf, readOperands m buf = mk (wordAt buf 1) := by intro; rfl) : SpellsW (opcode m) mk := by
  intro v3 v2 v1 v0 rest
  have hrow := decode_row (m := m) (tail := v3 :: v2 :: v1 :: v0 :: rest) (by simp [hformat]) (by simp [hformat, Format.need])
  rwa [hread, wordAt_one_cons_four, hformat] at hrow

theorem spellsR (m : Mnemonic) {mk : RegIdx → Instr} (hformat : m.format = .r := by rfl)
    (hread : ∀ buf, readOperands m buf = mk (byteAt buf 1) := by intro; rfl) : SpellsR (opcode m) mk := by
  intro r rest
  have hrow := decode_row (m := m) (tail := r :: rest) (by simp [hformat]) (by simp [hformat, Format.need])
  rwa [hread, hformat] at hrow

theorem decode_setRegister (r v3 v2 v1 v0 : Byte) (rest : List Byte) :
    (Instr.setRegister r (v3 ++ v2 ++ v1 ++ v0)).size = 6 ∧
      decode (0x09 :: r :: v3 :: v2 :: v1 :: v0 :: rest) = .instr (.setRegister r (v3 ++ v2 ++ v1 ++ v0)) := by
  have hrow := decode_row (m := .setRegister) (tail := r :: v3 :: v2 :: v1 :: v0 :: rest) (by decide)
    (by simp [Mnemonic.format, Format.need])
  have hword : wordAt (opcode .setRegister :: r :: v3 :: v2 :: v1 :: v0 :: rest) 2 = v3 ++ v2 ++ v1 ++ v0 :=
    ofNat_unbe_four v3 v2 v1 v0
  rwa [readOperands, hword] at hrow

theorem decode_copyCodeMemory (s3 s2 s1 s0 n3 n2 n1 n0 : Byte) (rest : List Byte) :
    (Instr.copyCodeMemory (s3 ++ s2 ++ s1 ++ s0) (n3 ++ n2 ++ n1 ++ n0)).size = 9 ∧
      decode (0x2B :: s3 :: s2 :: s1 :: s0 :: n3 :: n2 :: n1 :: n0 :: rest) =
        .instr (.copyCodeMemory (s3 ++ s2 ++ s1 ++ s0) (n3 ++ n2 ++ n1 ++ n0)) := by
  have hrow := decode_row (m := .copyCodeMemory) (tail := s3 :: s2 :: s1 :: s0 :: n3 :: n2 :: n1 :: n0 :: rest) (by decide)
    (by simp [Mnemonic.format, Format.need])
  have hword : wordAt (opcode .copyCodeMemory :: s3 :: s2 :: s1 :: s0 :: n3 :: n2 :: n1 :: n0 :: rest) 5 = n3 ++ n2 ++ n1 ++ n0 :=
    ofNat_unbe_four n3 n2 n1 n0
  rwa [readOperands, wordAt_one_cons_four, hword] at hrow

/-- A `Data` with its payload in the buffer decodes, whatever follows. -/
theorem decodeWith_data {opc : Mnemonic → Byte} (hinj : Function.Injective opc) {l3 l2 l1 l0 : Byte} {payload : List Byte}
    (hlength : payload.length = (l3 ++ l2 ++ l1 ++ l0 : Word).toNat) (rest : List Byte) :
    decodeWith opc (opc .data :: l3 :: l2 :: l1 :: l0 :: (payload ++ rest)) = .instr (.data (l3 ++ l2 ++ l1 ++ l0) payload) := by
  have hread : readOperands .data (opc .data :: l3 :: l2 :: l1 :: l0 :: (payload ++ rest)) =
      .data (l3 ++ l2 ++ l1 ++ l0) payload := by
    rw [readOperands, wordAt_one_cons_four, ← hlength]
    exact congrArg _ List.take_left
  rw [decodeWith_of_fits (mnemonicOf_opc hinj .data), hread]
  rw [size_readOperands_data, wordAt_one_cons_four, ← hlength]
  simp only [List.length_cons, List.length_append]
  omega

/-- Settles O2: the layout of each format, and which mnemonic has which. -/
theorem opcodeTableIsDecodedRowByRow : Obligations.OpcodeTableIsDecodedRowByRow := by
  refine ⟨spellsN .nop, spellsN .halt,
    spellsW .load8, spellsW .load16, spellsW .load32, spellsW .store8, spellsW .store16, spellsW .store32,
    spellsW .set, decode_setRegister,
    spellsR .deref8, spellsR .deref16, spellsR .deref32, spellsR .swap, spellsR .write8, spellsR .write16, spellsR .write32,
    spellsN .readStackPointer, spellsN .writeStackPointer, spellsW .jump, spellsW .call, spellsN .ret,
    spellsN .increment, spellsN .decrement, spellsR .incrementRegister, spellsR .decrementRegister,
    spellsR .add, spellsR .sub, spellsR .mul, spellsR .div, spellsR .compare,
    spellsW .jumpEqual, spellsW .jumpNotEqual, spellsW .jumpGreater, spellsW .jumpLess, spellsW .jumpGreaterEqual,
    spellsW .jumpLessEqual, spellsW .jumpZero, spellsW .jumpNonzero,
    spellsN .push, spellsN .pop, spellsR .pushRegister, spellsR .popRegister,
    decode_copyCodeMemory, spellsW .syscall, fun l3 l2 l1 l0 payload rest hlength => ⟨?size, ?decode⟩⟩
  case size => rw [hlength]; rfl
  case decode => exact decodeWith_data opcode_injective hlength rest

end Sys2Proof

/-! What an effect leaves alone: each instruction writes the pieces of state `writes` lists for it and no other (10_state.md R21 to
R32, 20_memory.md R50), and how an execute phase and a step can end. -/

namespace Sys2Proof.Machine

/-- The pieces of state an effect may write; the parameters of the Machine are in `SameParams`. -/
inductive Piece
  | acc
  | regs
  | pc
  | sp
  | zf
  | cf
  | status
  | out
  | mem
deriving DecidableEq

/-- This piece is the same in both states. -/
def Piece.Same (s t : State) : Piece → Prop
  | .acc => t.acc = s.acc
  | .regs => t.regs = s.regs
  | .pc => t.pc = s.pc
  | .sp => t.sp = s.sp
  | .zf => t.zf = s.zf
  | .cf => t.cf = s.cf
  | .status => t.status = s.status
  | .out => t.out = s.out
  | .mem => t.mem = s.mem

/-- The pieces of state the effect of an instruction writes: the writers of 10_state.md R23, R25 to R27, R29 to R31 and 20_memory.md
R50. -/
def writes : Mnemonic → List Piece
  | .nop | .data => []
  | .halt => [.status]
  | .load8 | .load16 | .load32 | .deref8 | .deref16 | .deref32 | .set | .readStackPointer | .add | .sub | .mul => [.acc]
  | .store8 | .store16 | .store32 | .write8 | .write16 | .write32 | .copyCodeMemory => [.mem]
  | .setRegister => [.regs]
  | .swap | .div => [.regs, .acc]
  | .writeStackPointer => [.sp]
  | .jump | .jumpEqual | .jumpNotEqual | .jumpGreater | .jumpLess | .jumpGreaterEqual | .jumpLessEqual | .jumpZero
  | .jumpNonzero => [.pc]
  | .call => [.mem, .sp, .pc]
  | .ret => [.sp, .pc]
  | .increment | .decrement => [.acc, .zf]
  | .incrementRegister | .decrementRegister => [.regs, .zf]
  | .compare => [.cf]
  | .push | .pushRegister => [.mem, .sp]
  | .pop => [.sp, .acc]
  | .popRegister => [.sp, .regs]
  | .syscall => [.out]

/-- Every piece but those listed is the same in both states. -/
def WritesOnly (w : List Piece) (s t : State) : Prop := ∀ p, p ∉ w → p.Same s t

namespace WritesOnly

theorem refl (s : State) (w : List Piece) : WritesOnly w s s := fun p _ => by cases p <;> rfl

theorem trans {v w : List Piece} {s t u : State} (h : WritesOnly v s t) (h' : WritesOnly w t u) : WritesOnly (v ++ w) s u := by
  intro p hp
  obtain ⟨hv, hw⟩ := not_or.1 (List.mem_append.not.1 hp)
  have hst := h p hv
  have htu := h' p hw
  cases p <;> exact Eq.trans htu hst

/-- Two states that agree on every piece but one. -/
theorem of_same {q : Piece} {s t : State} (h : ∀ p, p = q ∨ p.Same s t) : WritesOnly [q] s t := fun p hp =>
  (h p).resolve_left fun heq => hp (List.mem_singleton.2 heq)

/-! ### One update of the state -/

theorem setAcc (s : State) (v : Word) : WritesOnly [.acc] s (s.setAcc v) := of_same fun p => by cases p <;> simp [Piece.Same]
theorem setPc (s : State) (v : Word) : WritesOnly [.pc] s (s.setPc v) := of_same fun p => by cases p <;> simp [Piece.Same]
theorem setSp (s : State) (v : Word) : WritesOnly [.sp] s (s.setSp v) := of_same fun p => by cases p <;> simp [Piece.Same]
theorem setZf (s : State) (b : Bool) : WritesOnly [.zf] s (s.setZf b) := of_same fun p => by cases p <;> simp [Piece.Same]
theorem setCf (s : State) (c : Comparison) : WritesOnly [.cf] s (s.setCf c) := of_same fun p => by cases p <;> simp [Piece.Same]
theorem setStatus (s : State) (v : Status) : WritesOnly [.status] s (s.setStatus v) :=
  of_same fun p => by cases p <;> simp [Piece.Same]
theorem setMem (s : State) (m : Memory) : WritesOnly [.mem] s (s.setMem m) := of_same fun p => by cases p <;> simp [Piece.Same]
theorem setReg (s : State) (r : RegIdx) (v : Word) : WritesOnly [.regs] s (s.setReg r v) :=
  of_same fun p => by cases p <;> simp [Piece.Same]
theorem emit (s : State) (bs : List Byte) : WritesOnly [.out] s (s.emit bs) := of_same fun p => by cases p <;> simp [Piece.Same]
theorem raise (s : State) (c : Failure) : WritesOnly [.status] s (s.raise c) := setStatus s _

/-! ### The shared shapes of effects -/

theorem of_loadEffect {mode : AddrMode} {n : Nat} {s t : State} (h : LoadEffect mode n s t) : WritesOnly [.acc] s t := by
  obtain ⟨a, -, -, rfl⟩ := h
  exact setAcc s _

theorem of_storeEffect {mode : AddrMode} {n : Nat} {s t : State} (h : StoreEffect mode n s t) : WritesOnly [.mem] s t := by
  obtain ⟨a, -, -, rfl⟩ := h
  exact setMem s _

theorem of_pushEffect {v : Word} {s t : State} (h : PushEffect v s t) : WritesOnly [.mem, .sp] s t := by
  obtain ⟨-, -, rfl⟩ := h
  exact (setMem s _).trans (setSp _ _)

theorem of_jump {s t : State} {c : Bool} {a : Word} (h : t = if c then s.setPc a else s) : WritesOnly [.pc] s t := by
  subst h
  cases c
  · exact refl s _
  · exact setPc s a

theorem of_syscall {index : Word} {s t : State} (h : Effect (.syscall index) s t) : WritesOnly [.out] s t := by
  obtain ⟨-, rfl⟩ | ⟨bytes, -, ⟨-, rfl⟩ | ⟨-, rfl⟩⟩ := h <;> exact emit s _

end WritesOnly

open WritesOnly in
theorem effect_writesOnly {i : Instr} {s t : State} (h : Effect i s t) : WritesOnly (writes i.mnemonic) s t := by
  cases i with
  | nop | data _ _ => obtain rfl : t = s := h; exact refl t _
  | load8 _ | load16 _ | load32 _ | deref8 _ | deref16 _ | deref32 _ => exact of_loadEffect h
  | store8 _ | store16 _ | store32 _ | write8 _ | write16 _ | write32 _ => exact of_storeEffect h
  | jumpEqual _ | jumpNotEqual _ | jumpGreater _ | jumpLess _ | jumpGreaterEqual _ | jumpLessEqual _ | jumpZero _
  | jumpNonzero _ => exact of_jump h
  | halt => obtain rfl : t = _ := h; exact setStatus s _
  | set _ | readStackPointer => obtain rfl : t = _ := h; exact setAcc s _
  | writeStackPointer => obtain rfl : t = _ := h; exact setSp s _
  | jump _ => obtain rfl : t = _ := h; exact setPc s _
  | increment | decrement => obtain rfl : t = _ := h; exact (setAcc s _).trans (setZf _ _)
  | setRegister _ _ => obtain ⟨-, rfl⟩ := h; exact setReg s _ _
  | add _ | sub _ | mul _ => obtain ⟨v, -, rfl⟩ := h; exact setAcc s _
  | compare _ => obtain ⟨v, -, rfl⟩ := h; exact setCf s _
  | incrementRegister _ | decrementRegister _ => obtain ⟨v, -, rfl⟩ := h; exact (setReg s _ _).trans (setZf _ _)
  | swap _ => obtain ⟨v, -, rfl⟩ := h; exact (setReg s _ _).trans (setAcc _ _)
  | div _ => obtain ⟨v, -, -, rfl⟩ := h; exact (setReg s _ _).trans (setAcc _ _)
  | push => exact of_pushEffect h
  | pushRegister _ => obtain ⟨v, -, hpush⟩ := h; exact of_pushEffect hpush
  | call _ => obtain ⟨u, hpush, rfl⟩ := h; exact (of_pushEffect hpush).trans (setPc u _)
  | ret => obtain ⟨-, rfl⟩ := h; exact (setSp s _).trans (setPc _ _)
  | pop => obtain ⟨-, rfl⟩ := h; exact (setSp s _).trans (setAcc _ _)
  | popRegister _ => obtain ⟨-, -, rfl⟩ := h; exact (setSp s _).trans (setReg _ _ _)
  | copyCodeMemory _ _ => obtain ⟨-, -, rfl⟩ := h; exact setMem s _
  | syscall _ => exact of_syscall h

/-- An execute phase that changes a piece of state other than `status` is of an instruction that writes it. -/
theorem mem_writes_of_exec {i : Instr} {s t : State} (h : exec i s = .next t) {p : Piece} (hp : p ≠ .status)
    (hchanged : ¬ p.Same s t) : p ∈ writes i.mnemonic := by
  by_contra hnot
  obtain ⟨u, hu, hcase⟩ := exec_cases i s
  obtain rfl : t = u := by simpa [h] using hu
  rcases hcase with ⟨c, rfl⟩ | heffect
  · exact hchanged (WritesOnly.raise s c p (by simpa using hp))
  · exact hchanged (effect_writesOnly heffect p hnot)

/-- The writers of a piece, read off `writes`. -/
theorem mem_of_mem_writes {p : Piece} {ms : List Mnemonic} {m : Mnemonic} (h : p ∈ writes m)
    (hms : ∀ m ∈ Mnemonic.all, p ∈ writes m → m ∈ ms) : m ∈ ms := hms m (mem_all m) h

/-- Settles O19: what an execute phase changes is among `writes`, and `writes` gives each piece to the instructions of the
statement. -/
theorem writersOfEachPieceOfState : Obligations.WritersOfEachPieceOfState := by
  intro i s t hexec
  refine ⟨fun h => ?acc, fun h => ?regs, fun h => ?pc, fun h => ?sp, fun h => ?zf, fun h => ?cf, fun h => ?mem, fun h => ?out⟩
  case acc => exact mem_of_mem_writes (mem_writes_of_exec (p := .acc) hexec nofun h) (by decide)
  case regs => exact mem_of_mem_writes (mem_writes_of_exec (p := .regs) hexec nofun h) (by decide)
  case pc => exact mem_of_mem_writes (mem_writes_of_exec (p := .pc) hexec nofun h) (by decide)
  case sp => exact mem_of_mem_writes (mem_writes_of_exec (p := .sp) hexec nofun h) (by decide)
  case zf => exact mem_of_mem_writes (mem_writes_of_exec (p := .zf) hexec nofun h) (by decide)
  case cf => exact List.mem_singleton.1 (mem_of_mem_writes (mem_writes_of_exec (p := .cf) hexec nofun h) (by decide))
  case mem => exact mem_of_mem_writes (mem_writes_of_exec (p := .mem) hexec nofun h) (by decide)
  case out => exact List.mem_singleton.1 (mem_of_mem_writes (mem_writes_of_exec (p := .out) hexec nofun h) (by decide))

/-! ### How an execute phase ends -/

theorem effect_status {i : Instr} {s t : State} (h : Effect i s t) (hi : i ≠ .halt) : t.status = s.status := by
  refine effect_writesOnly h .status fun hmem => ?_
  have hm : i.mnemonic ∈ [Mnemonic.halt] := mem_of_mem_writes hmem (by decide)
  cases i with
  | halt => exact hi rfl
  | _ => simp [Instr.mnemonic] at hm

/-- Settles O11: a raised failure writes `status` only, and of the effects only the one of `Halt` writes it. -/
theorem executeFailsHaltsOrGoesOn : Obligations.ExecuteFailsHaltsOrGoesOn := by
  intro i s hrunning
  obtain ⟨t, hexec, hcase⟩ := exec_cases i s
  refine ⟨t, hexec, ?_⟩
  rcases hcase with ⟨c, rfl⟩ | heffect
  · exact .inl ⟨c, rfl⟩
  · by_cases hi : i = .halt
    · subst hi
      obtain rfl : t = s.setStatus .halted := heffect
      exact .inr (.inl ⟨rfl, rfl⟩)
    · exact .inr (.inr ⟨hi, (effect_status heffect hi).trans hrunning⟩)

/-- Settles O12: none of these instructions has a primitive that can fail. -/
theorem instructionsThatNeverFail : Obligations.InstructionsThatNeverFail := by
  intro i s t hm hrunning hexec hfailed
  have hstatus : t.status = s.status ∨ t.status = .halted := by
    cases i with
    | halt => obtain rfl : s.setStatus .halted = t := Host.Outcome.next.inj hexec; exact .inr rfl
    | nop | data _ _ | set _ | readStackPointer | writeStackPointer | jump _ | increment | decrement =>
      obtain rfl := Host.Outcome.next.inj hexec
      exact .inl rfl
    | jumpEqual _ | jumpNotEqual _ | jumpGreater _ | jumpLess _ | jumpGreaterEqual _ | jumpLessEqual _ | jumpZero _
    | jumpNonzero _ => exact .inl (WritesOnly.of_jump (Host.Outcome.next.inj hexec).symm .status (by decide))
    | _ => simp [Instr.mnemonic] at hm
  rcases hstatus with h | h
  · exact hfailed.not_running (h.trans hrunning)
  · exact hfailed.not_halted h

/-- Settles O10: the execute phase of what was decoded, or a raised failure, is a next state; the terminal cases are `step`'s own. -/
theorem stepIsDefinedExactlyWhenRunning : Obligations.StepIsDefinedExactlyWhenRunning := by
  intro s
  refine ⟨fun hrunning => ?running, fun hhalted => ?halted, fun c hfailed => ?failed⟩
  case running =>
    cases hdecode : s.fetchDecode with
    | error c => exact ⟨_, step_of_failed_fetch hrunning hdecode⟩
    | ok i =>
      obtain ⟨t, hexec, -⟩ := exec_cases i (s.advance i)
      exact ⟨t, (step_of_decoded hrunning hdecode).trans hexec⟩
  case halted => simp only [step, hhalted]
  case failed => simp only [step, hfailed]

end Sys2Proof.Machine

/-! The invariant: every step keeps it and every legal construction has it (00_scope.md R8, 10_state.md R32, 30_encoding.md R100). -/

namespace Sys2Proof.Machine

namespace State.Inv

/-- The limits are about the parameters, so a state with the same parameters has them; its memory has to be shown anew. -/
theorem of_sameParams {s t : State} (h : s.Inv) (hparams : SameParams s t) (hcanonical : t.mem.wf = true)
    (hinside : ∀ c ∈ t.mem, c.1 < s.memSize.toNat) : t.Inv where
  canonical := hcanonical
  inside := hparams.memSize.symm ▸ hinside
  nregBound := hparams.nreg.symm ▸ h.nregBound
  exeBound := hparams.exe.symm ▸ h.exeBound
  opcodes := hparams.opc.symm ▸ h.opcodes

theorem of_same_mem {s t : State} (h : s.Inv) (hparams : SameParams s t) (hmem : t.mem = s.mem) : t.Inv :=
  h.of_sameParams hparams (hmem ▸ h.canonical) (hmem ▸ h.inside)

/-- Writing consecutive bytes inside `MEM` keeps the invariant (10_state.md R32). -/
theorem of_writeBytes {s t : State} (h : s.Inv) (hparams : SameParams s t) {a : Nat} {bs : List Byte}
    (hmem : t.mem = s.mem.writeBytes a bs) (hfits : a + bs.length ≤ s.memSize.toNat) : t.Inv := by
  refine h.of_sameParams hparams (hmem ▸ Memory.wf_writeBytes h.canonical a bs) fun c hc => ?_
  rcases Memory.mem_writeBytes (hmem ▸ hc) with ⟨-, hlt⟩ | hold
  · omega
  · exact h.inside c hold

theorem of_effect {i : Instr} {s t : State} (h : s.Inv) (heffect : Effect i s t) : t.Inv := by
  have hparams : SameParams s t := effect_sameParams heffect
  rcases effect_mem heffect with hmem | ⟨a, bs, hmem, hfits⟩
  · exact h.of_same_mem hparams hmem
  · exact h.of_writeBytes hparams hmem hfits

theorem raise {s : State} (h : s.Inv) (c : Failure) : (s.raise c).Inv := h.of_same_mem (.raise s c) rfl

theorem advance {s : State} (h : s.Inv) (i : Instr) : (s.advance i).Inv := h.of_same_mem (.advance s i) rfl

end State.Inv

/-- Settles O16: a step advances, and then raises a failure or has an effect, which writes data memory by one write inside `MEM`. -/
theorem stepKeepsTheInvariant : Obligations.StepKeepsTheInvariant := by
  intro s t hinv hstep
  obtain ⟨-, ⟨c, -, rfl⟩ | ⟨i, -, ⟨c, rfl⟩ | heffect⟩⟩ := step_cases hstep
  · exact hinv.raise c
  · exact (hinv.advance i).raise c
  · exact (hinv.advance i).of_effect heffect

theorem State.construct_inv {exe : List Byte} {nreg : Nat} {opc : OpcodeMap} (memSize : Word) (cf : Comparison)
    (hexe : exe.length ≤ Config.maxWord.toNat) (hnreg : nreg ≤ Config.maxRegs) (hopc : opc.Legal) :
    (State.construct exe memSize nreg cf opc).Inv where
  canonical := rfl
  inside := nofun
  nregBound := by simpa using hnreg
  exeBound := hexe
  opcodes := hopc

/-- Settles O17: the invariant asks of the construction arguments what the statement assumes, and the empty memory is canonical. -/
theorem constructionHasTheInvariant : Obligations.ConstructionHasTheInvariant :=
  ⟨fun _ memSize _ cf _ hexe hnreg hopc => State.construct_inv memSize cf hexe hnreg hopc,
    State.construct_inv _ _ (Nat.zero_le _) (Nat.le_refl _) OpcodeMap.legal_standard⟩

/-- Settles O18: the fields of `State.construct`; a replicated list holds its value at every index, and an empty memory reads as the
reset value. -/
theorem constructionLeavesTheResetValues : Obligations.ConstructionLeavesTheResetValues := fun _ _ _ _ _ =>
  ⟨rfl, rfl, rfl, rfl, rfl, rfl, rfl, rfl, rfl, State.construct_nreg .., rfl, fun _ hr => List.getElem?_replicate_of_lt hr,
    fun _ => rfl⟩

end Sys2Proof.Machine

/-! Nothing reads `OUT`: whatever it holds, a step does the same and appends the same bytes (10_state.md R31, R33). -/

namespace Sys2Proof.Machine

/-- The same Machine with another `OUT`. -/
def State.setOut (s : State) (out : List Byte) : State := { s with out := out }

/-- `answer` is what a meaning answers in `s`, and `answerWith out` what it answers in `s.setOut out`: where the first is a next state,
the other is that state too but for `OUT`, and both append the same bytes. -/
def AppendsAlike (s : State) (answer : Host.Outcome State Fault Refusal)
    (answerWith : List Byte → Host.Outcome State Fault Refusal) : Prop :=
  ∀ t, answer = .next t → ∃ emitted, t.out = s.out ++ emitted ∧ ∀ out, answerWith out = .next (t.setOut (out ++ emitted))

namespace AppendsAlike

variable {s : State}

theorem emits {t : State} {emitted : List Byte} {t' : List Byte → State} (h : t.out = s.out ++ emitted)
    (h' : ∀ out, t' out = t.setOut (out ++ emitted)) : AppendsAlike s (.next t) (fun out => .next (t' out)) := by
  rintro _ ⟨⟩
  exact ⟨emitted, h, fun out => congrArg Host.Outcome.next (h' out)⟩

/-- An answer with the `OUT` of the state it began from. -/
theorem keeps {t : State} {t' : List Byte → State} (h : t.out = s.out) (h' : ∀ out, t' out = t.setOut out) :
    AppendsAlike s (.next t) (fun out => .next (t' out)) :=
  emits (by rw [h, List.append_nil]) fun out => by rw [h', List.append_nil]

theorem raised (c : Failure) : AppendsAlike s (.next (s.raise c)) (fun out => .next ((s.setOut out).raise c)) :=
  keeps rfl fun _ => rfl

/-! ### One rule per kind of primitive -/

section

variable {α : Type} {r : Except Failure α} {r' : List Byte → Except Failure α} {k : α → Host.Outcome State Fault Refusal}
  {k' : List Byte → α → Host.Outcome State Fault Refusal}

theorem orRaise_ok {v : α} {v' : List Byte → α} (hr : r = .ok v) (hr' : ∀ out, r' out = .ok (v' out))
    (h : AppendsAlike s (k v) (fun out => k' out (v' out))) :
    AppendsAlike s (s.orRaise r k) (fun out => (s.setOut out).orRaise (r' out) (k' out)) := by
  simpa only [hr, hr', State.orRaise_ok] using h

theorem orRaise_error {c : Failure} (hr : r = .error c) (hr' : ∀ out, r' out = .error c) :
    AppendsAlike s (s.orRaise r k) (fun out => (s.setOut out).orRaise (r' out) (k' out)) := by
  simpa only [hr, hr', State.orRaise_error] using raised c

/-- A primitive that answers a value answers the same one whatever `OUT` is, by definition. -/
theorem orRaise (h : ∀ v, AppendsAlike s (k v) (fun out => k' out v)) :
    AppendsAlike s (s.orRaise r k) (fun out => (s.setOut out).orRaise r (k' out)) := by
  cases r with
  | error c => exact orRaise_error rfl fun _ => rfl
  | ok v => exact orRaise_ok rfl (fun _ => rfl) (h v)

end

section

variable {a v : Word} {r : RegIdx} {n : Nat} {k : State → Host.Outcome State Fault Refusal}
  {k' : List Byte → State → Host.Outcome State Fault Refusal}

theorem orRaise_writeReg (h : AppendsAlike s (k (s.setReg r v)) (fun out => k' out ((s.setOut out).setReg r v))) :
    AppendsAlike s (s.orRaise (s.writeReg r v) k)
      (fun out => (s.setOut out).orRaise ((s.setOut out).writeReg r v) (k' out)) := by
  rcases Nat.lt_or_ge r.toNat s.nreg with hr | hr
  · exact orRaise_ok (State.writeReg_ok v hr) (fun _ => State.writeReg_ok v hr) h
  · exact orRaise_error (State.writeReg_error v hr) fun _ => State.writeReg_error v hr

theorem orRaise_memWrite (h : ∀ m, AppendsAlike s (k (s.setMem m)) (fun out => k' out ((s.setOut out).setMem m))) :
    AppendsAlike s (s.orRaise (s.memWrite a n v) k)
      (fun out => (s.setOut out).orRaise ((s.setOut out).memWrite a n v) (k' out)) := by
  rcases Nat.lt_or_ge s.memSize.toNat (a.toNat + n) with hm | hm
  · exact orRaise_error (State.memWrite_error v hm) fun _ => State.memWrite_error v hm
  · exact orRaise_ok (State.memWrite_ok v hm) (fun _ => State.memWrite_ok v hm) (h _)

theorem orRaise_push (h : AppendsAlike s (k (s.pushed v)) (fun out => k' out ((s.setOut out).pushed v))) :
    AppendsAlike s (s.orRaise (s.push v) k) (fun out => (s.setOut out).orRaise ((s.setOut out).push v) (k' out)) := by
  rcases Nat.lt_or_ge s.sp.toNat 4 with h4 | h4
  · exact orRaise_error (State.push_overflow v h4) fun _ => State.push_overflow v h4
  · rcases Nat.lt_or_ge s.memSize.toNat s.sp.toNat with hm | hm
    · exact orRaise_error (State.push_outOfBounds v h4 hm) fun _ => State.push_outOfBounds v h4 hm
    · exact orRaise_ok (State.push_ok v h4 hm) (fun _ => State.push_ok v h4 hm) h

theorem orRaise_pop {kp : Word × State → Host.Outcome State Fault Refusal}
    {kp' : List Byte → Word × State → Host.Outcome State Fault Refusal}
    (h : AppendsAlike s (kp (s.top, s.setSp (s.sp + 4#32))) (fun out => kp' out (s.top, (s.setOut out).setSp (s.sp + 4#32)))) :
    AppendsAlike s (s.orRaise s.pop kp) (fun out => (s.setOut out).orRaise (s.setOut out).pop (kp' out)) := by
  rcases Nat.lt_or_ge s.memSize.toNat (s.sp.toNat + 4) with hm | hm
  · exact orRaise_error (State.pop_error hm) fun _ => State.pop_error hm
  · exact orRaise_ok (State.pop_ok hm) (fun _ => State.pop_ok hm) h

end

theorem of_ite {b : Bool} {x y : Host.Outcome State Fault Refusal} {x' y' : List Byte → Host.Outcome State Fault Refusal}
    (hx : AppendsAlike s x x') (hy : AppendsAlike s y y') :
    AppendsAlike s (if b then x else y) (fun out => if b then x' out else y' out) := by
  cases b
  · exact hy
  · exact hx

/-! ### The shared shapes of instructions -/

theorem loadAcc (mode : AddrMode) (n : Nat) : AppendsAlike s (s.loadAcc mode n) (fun out => (s.setOut out).loadAcc mode n) :=
  orRaise fun _ => orRaise fun _ => keeps rfl fun _ => rfl

theorem storeAcc (mode : AddrMode) (n : Nat) : AppendsAlike s (s.storeAcc mode n) (fun out => (s.setOut out).storeAcc mode n) :=
  orRaise fun _ => orRaise_memWrite fun _ => keeps rfl fun _ => rfl

theorem accOp (r : RegIdx) (f : Word → Word → Word) : AppendsAlike s (s.accOp r f) (fun out => (s.setOut out).accOp r f) :=
  orRaise fun _ => keeps rfl fun _ => rfl

theorem jumpIf (cond : Bool) (addr : Word) : AppendsAlike s (s.jumpIf cond addr) (fun out => (s.setOut out).jumpIf cond addr) := by
  cases cond <;> exact keeps rfl fun _ => rfl

theorem copyCodeMemory (source size : Word) :
    AppendsAlike s (execCopyCodeMemory source size s) (fun out => execCopyCodeMemory source size (s.setOut out)) :=
  orRaise fun _ => of_ite (keeps rfl fun _ => rfl) (raised _)

theorem syscall (index : Word) : AppendsAlike s (execSyscall index s) (fun out => execSyscall index (s.setOut out)) := by
  unfold execSyscall
  split
  · exact orRaise fun _ => emits rfl fun _ => rfl
  · split
    · exact emits rfl fun _ => rfl
    · split
      · exact orRaise fun _ => emits rfl fun _ => rfl
      · exact raised _

end AppendsAlike

open AppendsAlike in
/-- The execute phase of every instruction appends what it appends whatever `OUT` is, and does the same besides. -/
theorem exec_appendsAlike (i : Instr) (s : State) : AppendsAlike s (exec i s) (fun out => exec i (s.setOut out)) := by
  cases i with
  | nop | data _ _ | halt | set _ | readStackPointer | writeStackPointer | increment | decrement => exact keeps rfl fun _ => rfl
  | load8 _ | load16 _ | load32 _ => exact loadAcc (.absolute _) _
  | deref8 _ | deref16 _ | deref32 _ => exact loadAcc (.indirect _) _
  | store8 _ | store16 _ | store32 _ => exact storeAcc (.absolute _) _
  | write8 _ | write16 _ | write32 _ => exact storeAcc (.indirect _) _
  | jump _ | jumpEqual _ | jumpNotEqual _ | jumpGreater _ | jumpLess _ | jumpGreaterEqual _ | jumpLessEqual _ | jumpZero _
  | jumpNonzero _ => exact jumpIf _ _
  | add _ | sub _ | mul _ => exact accOp _ _
  | compare _ => exact orRaise fun _ => keeps rfl fun _ => rfl
  | setRegister _ _ => exact orRaise_writeReg (keeps rfl fun _ => rfl)
  | swap _ | incrementRegister _ | decrementRegister _ => exact orRaise fun _ => orRaise_writeReg (keeps rfl fun _ => rfl)
  | div _ => exact orRaise fun _ => orRaise fun _ => orRaise_writeReg (keeps rfl fun _ => rfl)
  | push | call _ => exact orRaise_push (keeps rfl fun _ => rfl)
  | pushRegister _ => exact orRaise fun _ => orRaise_push (keeps rfl fun _ => rfl)
  | pop | ret => exact orRaise_pop (keeps rfl fun _ => rfl)
  | popRegister _ => exact orRaise fun _ => orRaise_pop (keeps rfl fun _ => rfl)
  | copyCodeMemory source size => exact copyCodeMemory source size
  | syscall index => exact syscall index

theorem step_appendsAlike {s : State} (hrunning : s.status = .running) :
    AppendsAlike s (step s) (fun out => step (s.setOut out)) := by
  cases hdecode : s.fetchDecode with
  | error c =>
    have hwith : ∀ out, step (s.setOut out) = .next ((s.setOut out).raise c) := fun out =>
      step_of_failed_fetch (s := s.setOut out) hrunning hdecode
    simpa only [step_of_failed_fetch hrunning hdecode, hwith] using AppendsAlike.raised c
  | ok i =>
    have hwith : ∀ out, step (s.setOut out) = exec i ((s.advance i).setOut out) := fun out =>
      step_of_decoded (s := s.setOut out) hrunning hdecode
    simp only [step_of_decoded hrunning hdecode, hwith]
    exact exec_appendsAlike i (s.advance i)

/-- Settles O20: fetch and decode do not look at `OUT`, and the execute phase is `exec_appendsAlike`. -/
theorem outputIsAppendedAndNeverRead : Obligations.OutputIsAppendedAndNeverRead := fun _ t hstep =>
  step_appendsAlike (step_cases hstep).1 t hstep

end Sys2Proof.Machine

/-! A step at bytes that decode: the instructions of a compiled Program, and `Nop`, `Data`, `Halt` and `Jump`, whose steps say where
`pc` goes (40_step_cycle.md R130 to R142, 30_encoding.md R112). -/

namespace Sys2Proof.Machine

theorem pc_lt_of_drop_ne_nil {s : State} (h : s.exe.drop s.pc.toNat ≠ []) : s.pc.toNat < s.exe.length := by
  by_contra hout
  exact h (List.drop_eq_nil_of_le (Nat.not_lt.1 hout))

theorem step_of_decodeWith {s : State} {i : Instr} (hrunning : s.status = .running)
    (hdecode : decodeWith s.opc.byte (s.exe.drop s.pc.toNat) = .instr i) : step s = exec i (s.advance i) := by
  have hinside : s.pc.toNat < s.exe.length := pc_lt_of_drop_ne_nil fun hnil => by rw [hnil] at hdecode; cases hdecode
  exact (decodePhaseOfAStep s hrunning hinside).2.2 i hdecode

/-- Settles O7: the step is `step_of_decodeWith`, and the decoded instruction lies in `EXE`, so no address inside it wraps. -/
theorem stepRunsTheDecodedInstruction : Obligations.StepRunsTheDecodedInstruction := by
  intro s i hrunning hinside hdecode
  refine ⟨step_of_decodeWith hrunning hdecode, fun hexe => ?_⟩
  have hfits : i.size ≤ (s.exe.drop s.pc.toNat).length := (decodedInstructionLiesInTheBuffer _ _ _ hdecode).1
  have hpc := s.pc.isLt
  rw [List.length_drop] at hfits
  rw [Config.maxWord_toNat] at hexe
  have hend : s.pc.toNat + i.size ≤ s.exe.length := by omega
  refine ⟨?_, hend⟩
  rw [BitVec.toNat_add, BitVec.toNat_ofNat]
  omega

/-- Settles O8: the fetch answers the failure, and raising it writes `status` only. -/
theorem fetchOutsideTheProgramFails : Obligations.FetchOutsideTheProgramFails := fun _ hrunning houtside =>
  step_outside_program hrunning houtside

/-- Settles O50: `decodeWith_drop_address` under the map of the Machine; the addresses of a Program no longer than `MAXW` are words. -/
theorem compiledProgramsRunInstructionByInstruction : Obligations.CompiledProgramsRunInstructionByInstruction := by
  intro s prog k i hlegal hrunning hexecutable hk hpc
  obtain ⟨hcompile, hlength⟩ := Builder.executable_ok hexecutable
  have hdecode : decodeWith s.opc.byte (s.exe.drop s.pc.toNat) = .instr i := by
    rw [hpc]
    exact decodeWith_drop_address hlegal.2 hcompile hk
  have hnext : BitVec.ofNat 32 (Builder.address prog (k + 1)) = s.pc + BitVec.ofNat 32 i.size := by
    rw [Builder.address_succ hk, ← hpc, BitVec.ofNat_add, BitVec.ofNat_toNat, BitVec.setWidth_eq]
  constructor
  · rw [hnext]
    exact step_of_decodeWith hrunning hdecode
  · have hle := Builder.address_le prog (k + 1)
    rw [Builder.length_of_compileWith hcompile, Config.maxWord_toNat] at hlength
    rw [BitVec.toNat_ofNat]
    omega

/-! ### `Nop`, `Halt` and `Data` -/

/-- An instruction of format N decodes at its opcode byte. -/
theorem step_of_opcode {s : State} {m : Mnemonic} {i : Instr} {rest : List Byte} (hlegal : s.opc.Legal)
    (hrunning : s.status = .running) (hread : ∀ buf, readOperands m buf = i) (hsize : i.size = 1)
    (hbytes : s.exe.drop s.pc.toNat = s.opc.byte m :: rest) : step s = exec i { s with pc := s.pc + 1 } := by
  have hdecode : decodeWith s.opc.byte (s.exe.drop s.pc.toNat) = .instr i := by
    rw [hbytes, decodeWith_of_fits (mnemonicOf_opc hlegal.2 m), hread]
    rw [hread, hsize]
    exact Nat.le_add_left 1 _
  have hstep := step_of_decodeWith hrunning hdecode
  rwa [State.advance, hsize] at hstep

section

variable {s : State} {l3 l2 l1 l0 : Byte} {tail : List Byte} (hlegal : s.opc.Legal) (hrunning : s.status = .running)
  (hbytes : s.exe.drop s.pc.toNat = s.opc.byte .data :: l3 :: l2 :: l1 :: l0 :: tail)
include hlegal hrunning hbytes

theorem step_of_data (hfits : (l3 ++ l2 ++ l1 ++ l0 : Word).toNat ≤ tail.length) :
    step s = .next { s with pc := s.pc + 5 + (l3 ++ l2 ++ l1 ++ l0) } := by
  have hpayload : (tail.take (l3 ++ l2 ++ l1 ++ l0 : Word).toNat).length = (l3 ++ l2 ++ l1 ++ l0 : Word).toNat :=
    List.length_take_of_le hfits
  have hdecode := decodeWith_data hlegal.2 hpayload (tail.drop (l3 ++ l2 ++ l1 ++ l0 : Word).toNat)
  rw [List.take_append_drop, ← hbytes] at hdecode
  have hpc : s.pc + BitVec.ofNat 32 (5 + (l3 ++ l2 ++ l1 ++ l0 : Word).toNat) = s.pc + 5 + (l3 ++ l2 ++ l1 ++ l0) := by
    rw [BitVec.ofNat_add, BitVec.ofNat_toNat, BitVec.setWidth_eq, BitVec.add_assoc]
    rfl
  rw [step_of_decodeWith hrunning hdecode, ← hpc]
  rfl

theorem step_of_short_data (hshort : tail.length < (l3 ++ l2 ++ l1 ++ l0 : Word).toNat) :
    step s = .next (s.raise (.decodeTruncated s.pc)) := by
  have hinside : s.pc.toNat < s.exe.length := pc_lt_of_drop_ne_nil (by simp [hbytes])
  refine (decodePhaseOfAStep s hrunning hinside).1 ?_
  rw [hbytes]
  exact decodeWith_short_data hlegal.2 hshort

end

/-- Settles O21: the execute phases answer the state, so the step is the advance over one byte, or over the header and the payload. -/
theorem nopAndDataAreSkipped : Obligations.NopAndDataAreSkipped := fun _ =>
  ⟨rfl, fun _ _ => rfl, fun hlegal hrunning =>
    ⟨fun _ hbytes => step_of_opcode (i := .nop) hlegal hrunning (fun _ => rfl) rfl hbytes,
      fun _ _ _ _ _ hbytes => ⟨step_of_data hlegal hrunning hbytes, step_of_short_data hlegal hrunning hbytes⟩⟩⟩

/-- Settles O22: the step at the byte of `Halt` is its execute phase after the advance, and `step` answers a fault from `Halted`. -/
theorem haltIsTerminal : Obligations.HaltIsTerminal := fun _ =>
  ⟨rfl, fun _ hlegal hrunning hbytes =>
    ⟨step_of_opcode (i := .halt) hlegal hrunning (fun _ => rfl) rfl hbytes, (stepIsDefinedExactlyWhenRunning _).2.1 rfl⟩⟩

/-- Settles O31: `Jump` is `jumpIf` without a condition, and the fetch judges the target; no program is longer than `MAXW`. -/
theorem jumpAndTheNextFetch : Obligations.JumpAndTheNextFetch := fun s addr =>
  ⟨rfl, fun hrunning houtside => step_outside_program (s := { s with pc := addr }) hrunning houtside,
    fun hinv hrunning => step_outside_program (s := { s with pc := Config.maxWord }) hrunning hinv.exeBound⟩

end Sys2Proof.Machine

/-! Loads, stores and moves: the addressing mode gives the address, and the bytes are big-endian (41_data_movement.md R150 to R164,
20_memory.md R54). -/

namespace Sys2Proof.Machine

/-! ### Bytes that were written -/

namespace Memory

/-- A byte written among others reads back at its offset. -/
theorem read_writeBytes_of_getElem? (m : Memory) (a : Nat) {bs : List Byte} {k : Nat} {b : Byte} (h : bs[k]? = some b) :
    (m.writeBytes a bs).read (a + k) = b := by
  have hk : k < bs.length := (List.getElem?_eq_some_iff.1 h).1
  rw [read_writeBytes, if_pos (by omega), Nat.add_sub_cancel_left, List.getD, h, Option.getD_some]

/-- The bytes read inside a range that was written are those that were written there. -/
theorem readBytes_writeBytes_slice (m : Memory) (a : Nat) {bs : List Byte} {k n : Nat} (h : k + n ≤ bs.length) :
    (m.writeBytes a bs).readBytes (a + k) n = (bs.drop k).take n := by
  refine List.ext_getElem? fun j => ?_
  by_cases hj : j < n
  · rw [readBytes_getElem? _ _ _ _ hj, List.getElem?_take_of_lt hj, List.getElem?_drop]
    obtain ⟨b, hb⟩ : ∃ b, bs[k + j]? = some b := ⟨_, List.getElem?_eq_getElem (by omega)⟩
    rw [Nat.add_assoc, read_writeBytes_of_getElem? m a hb, hb]
  · rw [List.getElem?_eq_none (by simpa using hj), List.getElem?_eq_none]
    rw [List.length_take]
    omega

end Memory

/-- `m` is `m₀` with these bytes at `a`, and nothing else changed. -/
structure HoldsAt (m₀ : Memory) (a : Nat) (bs : List Byte) (m : Memory) : Prop where
  bytes : ∀ {k b}, bs[k]? = some b → m.read (a + k) = b
  outside : ∀ c, c < a ∨ a + bs.length ≤ c → m.read c = m₀.read c

theorem holdsAt_writeBytes (m : Memory) (a : Nat) (bs : List Byte) : HoldsAt m a bs (m.writeBytes a bs) where
  bytes := m.read_writeBytes_of_getElem? a
  outside c hc := m.read_writeBytes_outside a bs c hc

namespace HoldsAt

variable {m₀ m : Memory} {a : Nat} {v : Word}

theorem low_byte (h : HoldsAt m₀ a (splitData 1 v.toNat) m) :
    m.read a = v.extractLsb' 0 8 ∧ ∀ c, c < a ∨ a + 1 ≤ c → m.read c = m₀.read c := by
  rw [splitData_one] at h
  exact ⟨h.bytes (k := 0) rfl, h.outside⟩

theorem low_two_bytes (h : HoldsAt m₀ a (splitData 2 v.toNat) m) :
    m.read a = v.extractLsb' 8 8 ∧ m.read (a + 1) = v.extractLsb' 0 8 ∧
      ∀ c, c < a ∨ a + 2 ≤ c → m.read c = m₀.read c := by
  rw [splitData_two] at h
  exact ⟨h.bytes (k := 0) rfl, h.bytes (k := 1) rfl, h.outside⟩

theorem four_bytes (h : HoldsAt m₀ a (splitData 4 v.toNat) m) :
    m.read a = v.extractLsb' 24 8 ∧ m.read (a + 1) = v.extractLsb' 16 8 ∧ m.read (a + 2) = v.extractLsb' 8 8 ∧
      m.read (a + 3) = v.extractLsb' 0 8 ∧ ∀ c, c < a ∨ a + 4 ≤ c → m.read c = m₀.read c := by
  rw [splitData_four] at h
  exact ⟨h.bytes (k := 0) rfl, h.bytes (k := 1) rfl, h.bytes (k := 2) rfl, h.bytes (k := 3) rfl, h.outside⟩

end HoldsAt

/-! ### Loads and stores in either addressing mode -/

section

variable {s : State} {mode : AddrMode} {a : Word} (ha : mode.effAddr s = .ok a)
include ha

theorem loadAcc_one (h : a.toNat + 1 ≤ s.memSize.toNat) :
    s.loadAcc mode 1 = .next { s with acc := 0#24 ++ s.mem.read a.toNat } := by
  rw [State.loadAcc_ok ha h, composeData_one]
  rfl

theorem loadAcc_two (h : a.toNat + 2 ≤ s.memSize.toNat) :
    s.loadAcc mode 2 = .next { s with acc := 0#16 ++ s.mem.read a.toNat ++ s.mem.read (a.toNat + 1) } := by
  rw [State.loadAcc_ok ha h, composeData_two]
  rfl

theorem loadAcc_four (h : a.toNat + 4 ≤ s.memSize.toNat) :
    s.loadAcc mode 4 = .next { s with acc := BytesAsWord s.mem a.toNat } := by
  rw [State.loadAcc_ok ha h, composeData_four]
  rfl

theorem storeAcc_holdsAt {n : Nat} (h : a.toNat + n ≤ s.memSize.toNat) :
    ∃ m, s.storeAcc mode n = .next { s with mem := m } ∧ HoldsAt s.mem a.toNat (splitData n s.acc.toNat) m :=
  ⟨_, State.storeAcc_ok ha h, holdsAt_writeBytes _ _ _⟩

theorem storeAcc_one (h : a.toNat + 1 ≤ s.memSize.toNat) :
    ∃ m, s.storeAcc mode 1 = .next { s with mem := m } ∧ m.read a.toNat = s.acc.extractLsb' 0 8 ∧
      ∀ c, (c < a.toNat ∨ a.toNat + 1 ≤ c) → m.read c = s.mem.read c :=
  (storeAcc_holdsAt ha h).imp fun _ => .imp_right HoldsAt.low_byte

theorem storeAcc_two (h : a.toNat + 2 ≤ s.memSize.toNat) :
    ∃ m, s.storeAcc mode 2 = .next { s with mem := m } ∧
      m.read a.toNat = s.acc.extractLsb' 8 8 ∧ m.read (a.toNat + 1) = s.acc.extractLsb' 0 8 ∧
      ∀ c, (c < a.toNat ∨ a.toNat + 2 ≤ c) → m.read c = s.mem.read c :=
  (storeAcc_holdsAt ha h).imp fun _ => .imp_right HoldsAt.low_two_bytes

theorem storeAcc_four (h : a.toNat + 4 ≤ s.memSize.toNat) :
    ∃ m, s.storeAcc mode 4 = .next { s with mem := m } ∧
      m.read a.toNat = s.acc.extractLsb' 24 8 ∧ m.read (a.toNat + 1) = s.acc.extractLsb' 16 8 ∧
      m.read (a.toNat + 2) = s.acc.extractLsb' 8 8 ∧ m.read (a.toNat + 3) = s.acc.extractLsb' 0 8 ∧
      ∀ c, (c < a.toNat ∨ a.toNat + 4 ≤ c) → m.read c = s.mem.read c :=
  (storeAcc_holdsAt ha h).imp fun _ => .imp_right HoldsAt.four_bytes

end

/-- Settles O23: the loads in the absolute mode, whose address is the operand. -/
theorem absoluteLoads : Obligations.AbsoluteLoads := fun s addr =>
  have ha : (AddrMode.absolute addr).effAddr s = .ok addr := State.effAddr_absolute addr s
  ⟨loadAcc_one ha, State.loadAcc_error ha, loadAcc_two ha, State.loadAcc_error ha, loadAcc_four ha, State.loadAcc_error ha⟩

/-- Settles O24: the loads in the register-indirect mode, whose address is the content of the register. -/
theorem registerIndirectLoads : Obligations.RegisterIndirectLoads := fun s reg a hreg =>
  have ha : (AddrMode.indirect reg).effAddr s = .ok a := State.readReg_ok hreg
  ⟨loadAcc_one ha, State.loadAcc_error ha, loadAcc_two ha, State.loadAcc_error ha, loadAcc_four ha, State.loadAcc_error ha⟩

/-- Settles O25: the stores in the absolute mode. -/
theorem absoluteStores : Obligations.AbsoluteStores := fun s addr =>
  have ha : (AddrMode.absolute addr).effAddr s = .ok addr := State.effAddr_absolute addr s
  ⟨storeAcc_one ha, State.storeAcc_error ha, storeAcc_two ha, State.storeAcc_error ha, storeAcc_four ha, State.storeAcc_error ha⟩

/-- Settles O26: the address of the register-indirect mode is what the register holds, and the stores are as in the absolute mode. -/
theorem registerIndirectStores : Obligations.RegisterIndirectStores := fun _ _ =>
  ⟨fun _ => State.readReg_ok_iff.symm, fun _ ha =>
    ⟨storeAcc_one ha, State.storeAcc_error ha, storeAcc_two ha, State.storeAcc_error ha, storeAcc_four ha,
      State.storeAcc_error ha⟩⟩

/-! ### Parts of a stored word -/

theorem be_drop (k n v : Nat) : (be (k + n) v).drop k = be n v := by
  induction k with
  | zero => rw [Nat.zero_add, List.drop_zero]
  | succ k ih => rw [Nat.succ_add, be, List.drop_succ_cons, ih]

theorem be_take (n j v : Nat) : (be (n + j) v).take n = be n (v / 256 ^ j) := by
  induction n with
  | zero => rw [List.take_zero, be]
  | succ n ih => rw [Nat.succ_add, be, List.take_succ_cons, ih, be, Nat.div_div_eq_div_mul, ← pow_add, Nat.add_comm j n]

/-- Of the big-endian bytes of `v`, those with `k` before and `j` after them spell this part of `v` (20_memory.md R54). -/
theorem composeData_splitData_slice (k n j v : Nat) :
    composeData (((splitData (k + (n + j)) v).drop k).take n) = v / 256 ^ j % 256 ^ n := by
  rw [splitData, be_drop, be_take, composeData, unbe_be]

/-- A load of `n` bytes at offset `k` of the word `v` that stands at `addr`, `j` bytes of it behind them. -/
theorem loadAcc_of_stored_word {t : State} {m : Memory} {addr v : Word} {k n j : Nat}
    (hmem : t.mem = m.writeBytes addr.toNat (splitData 4 v.toNat)) (hfits : addr.toNat + 4 ≤ t.memSize.toNat)
    (hk : k + (n + j) = 4) :
    t.loadAcc (.absolute (addr + BitVec.ofNat 32 k)) n =
      .next { t with acc := BitVec.ofNat 32 (v.toNat / 256 ^ j % 256 ^ n) } := by
  have hsize := t.memSize.isLt
  have haddr : (addr + BitVec.ofNat 32 k).toNat = addr.toNat + k := by
    rw [BitVec.toNat_add, BitVec.toNat_ofNat]
    omega
  have hbytes : t.mem.readBytes (addr.toNat + k) n = ((splitData 4 v.toNat).drop k).take n := by
    rw [hmem, Memory.readBytes_writeBytes_slice _ _ (by rw [splitData_length]; omega)]
  rw [State.loadAcc_ok (State.effAddr_absolute _ t) (by rw [haddr]; omega), haddr, hbytes, ← hk, composeData_splitData_slice]
  rfl

/-- Settles O29: each load is one of a part of the word the store left there. -/
theorem narrowLoadsOfAStoredWord : Obligations.NarrowLoadsOfAStoredWord := by
  intro s addr hfits
  obtain ⟨t, hexec, hmem, hsize⟩ : ∃ t, exec (.store32 addr) s = .next t ∧
      t.mem = s.mem.writeBytes addr.toNat (splitData 4 s.acc.toNat) ∧ t.memSize = s.memSize :=
    ⟨_, State.storeAcc_ok (State.effAddr_absolute addr s) hfits, rfl, rfl⟩
  rw [← hsize] at hfits
  refine ⟨t, hexec, ?load32, fun k hk => ?load8, fun k hk => ?load16⟩
  case load32 =>
    have hword : s.acc.toNat / 256 ^ 0 % 256 ^ 4 = s.acc.toNat := by
      rw [pow_zero, Nat.div_one]
      exact Nat.mod_eq_of_lt s.acc.isLt
    have hload := loadAcc_of_stored_word (k := 0) (n := 4) (j := 0) hmem hfits rfl
    rwa [hword, BitVec.ofNat_toNat, BitVec.setWidth_eq, BitVec.add_zero] at hload
  case load8 => exact loadAcc_of_stored_word hmem hfits (by omega)
  case load16 => exact loadAcc_of_stored_word hmem hfits (by omega)

end Sys2Proof.Machine

/-! Moves, the stack, arithmetic, compare and what the jumps after it test: each answers the state with its destinations replaced, or
fails (41_data_movement.md R156, R157, R161; 42_stack_pointer_and_jumps.md; 43_arithmetic_compare.md; 44_conditional_jumps.md;
45_stack.md). -/

namespace Sys2Proof.Machine

/-! ### Moves -/

/-- Settles O27: a register that was set holds the literal, and the list of registers is the old one elsewhere. -/
theorem literalMoves : Obligations.LiteralMoves := by
  refine fun s value => ⟨rfl, fun reg hreg => ⟨s.regs.set reg.toNat value, ?_, List.length_set .., ?_, fun k hk => ?_⟩⟩
  · rw [exec, execSetRegister, State.writeReg_ok value hreg]
    rfl
  · exact List.getElem?_set_self hreg
  · exact List.getElem?_set_ne hk.symm

/-- A register that holds a word is one of the Machine. -/
theorem lt_nreg_of_getElem? {s : State} {reg : RegIdx} {v : Word} (h : s.regs[reg.toNat]? = some v) : reg.toNat < s.nreg :=
  (List.getElem?_eq_some_iff.1 h).1

theorem exec_swap {s : State} {reg : RegIdx} {v : Word} (h : s.regs[reg.toNat]? = some v) :
    exec (.swap reg) s = .next ((s.setReg reg s.acc).setAcc v) := by
  rw [exec, execSwap, State.readReg_ok h, State.orRaise_ok, State.writeReg_ok s.acc (lt_nreg_of_getElem? h), State.orRaise_ok]

/-- Settles O28: the second exchange writes to the register what it held, and to `acc` what it held. -/
theorem swapExchanges : Obligations.SwapExchanges := by
  intro s reg v hreg
  refine ⟨exec_swap hreg, ?_⟩
  have hback : ((s.setReg reg s.acc).setAcc v).regs[reg.toNat]? = some s.acc :=
    List.getElem?_set_self (lt_nreg_of_getElem? hreg)
  have hsame : (s.regs.set reg.toNat s.acc).set reg.toNat v = s.regs := by
    rw [List.set_set]
    exact congrArg State.regs (State.setReg_eq_self hreg)
  calc exec (.swap reg) { s with acc := v, regs := s.regs.set reg.toNat s.acc }
      = .next { s with regs := (s.regs.set reg.toNat s.acc).set reg.toNat v } := exec_swap hback
    _ = .next s := by rw [hsame]

/-- Settles O30: both execute phases compute, and the second writes to `sp` what `sp` held. -/
theorem stackPointerMoves : Obligations.StackPointerMoves := by
  refine fun s => ⟨rfl, rfl, fun t hexec => ?_⟩
  obtain rfl : s.setAcc s.sp = t := Host.Outcome.next.inj hexec
  rfl

/-! ### The stack -/

/-- What a push that succeeds leaves in memory. -/
theorem pushedBytes_pushed (s : State) (v : Word) : PushedBytes s v (s.pushed v).mem :=
  (holdsAt_writeBytes s.mem (s.sp - 4#32).toNat (splitData 4 v.toNat)).four_bytes

/-- An instruction that pushes: what it does with the state the push leaves, and its two failures (45_stack.md R240). -/
theorem exec_of_push {i : Instr} {s : State} {v : Word} {k : State → Host.Outcome State Fault Refusal}
    (hexec : exec i s = s.orRaise (s.push v) k) :
    (4 ≤ s.sp.toNat → s.sp.toNat ≤ s.memSize.toNat → exec i s = k (s.pushed v)) ∧
    (s.sp.toNat < 4 → Fails i s .stackOverflow) ∧
    (4 ≤ s.sp.toNat → s.memSize.toNat < s.sp.toNat → Fails i s (.memoryOutOfBounds (s.sp - 4#32))) := by
  refine ⟨fun h4 hm => ?_, fun h4 => fails_of_orRaise (State.push_overflow v h4) hexec,
    fun h4 hm => fails_of_orRaise (State.push_outOfBounds v h4 hm) hexec⟩
  rw [hexec, State.push_ok v h4 hm, State.orRaise_ok]

/-- Settles O32: `Call` pushes `pc` and then jumps. -/
theorem callPushesTheReturnAddress : Obligations.CallPushesTheReturnAddress := fun s addr =>
  have hcall := exec_of_push (i := .call addr) (s := s) rfl
  ⟨fun h4 hm => ⟨_, hcall.1 h4 hm, pushedBytes_pushed s s.pc⟩, hcall.2⟩

/-- Settles O33: `Push` pushes `acc`, `PushRegister` the register. -/
theorem pushInstructions : Obligations.PushInstructions := fun s =>
  have hpush := exec_of_push (i := .push) (s := s) rfl
  ⟨⟨fun h4 hm => ⟨_, hpush.1 h4 hm, pushedBytes_pushed s s.acc⟩, hpush.2⟩, fun reg v hreg =>
    have hpushRegister := exec_of_push (i := .pushRegister reg) (s := s) (v := v) (k := .next)
      (by rw [exec, execPushRegister, State.readReg_ok hreg, State.orRaise_ok])
    ⟨fun h4 hm => ⟨_, hpushRegister.1 h4 hm, pushedBytes_pushed s v⟩, hpushRegister.2⟩⟩

/-- Settles O34: the three pops take the word at `sp`; none wraps, since `MEM_SIZE` is a word. -/
theorem popInstructions : Obligations.PopInstructions := by
  refine fun s => ⟨fun hfits => ?fits, fun hunder => ?underflows⟩
  case fits =>
    have hpop : s.pop = .ok (BytesAsWord s.mem s.sp.toNat, s.setSp (s.sp + 4#32)) := by
      rw [State.pop_ok hfits, composeData_four]
      rfl
    have hsize := s.memSize.isLt
    refine ⟨exec_pop_of_pop hpop, exec_ret_of_pop hpop, fun reg hreg => exec_popRegister_of_pop hreg hpop, ?_⟩
    rw [BitVec.toNat_add, BitVec.toNat_ofNat]
    omega
  case underflows =>
    have hpop : s.pop = .error .stackUnderflow := State.pop_error hunder
    refine ⟨fails_of_orRaise hpop rfl, fails_of_orRaise hpop rfl, fun reg hreg => ?_⟩
    rw [Fails, exec, execPopRegister, State.chkReg_ok hreg, State.orRaise_ok, hpop]
    rfl

/-! ### Words as numbers -/

theorem incremented_eq (v : Word) : incremented v = BitVec.ofNat 32 ((v.toNat + 1) % 2 ^ 32) := by
  apply BitVec.eq_of_toNat_eq
  simp [incremented]

theorem zeroFlagOf_eq (v : Word) : zeroFlagOf v = decide (v.toNat = 0) := by
  simp [zeroFlagOf, BitVec.toNat_eq, beq_eq_decide]

theorem zeroFlagOf_incremented (v : Word) : zeroFlagOf (incremented v) = decide ((v.toNat + 1) % 2 ^ 32 = 0) := by
  rw [zeroFlagOf_eq, incremented, BitVec.toNat_add]
  rfl

theorem decremented_toNat (v : Word) : (decremented v).toNat = if v.toNat = 0 then 2 ^ 32 - 1 else v.toNat - 1 := by
  have hv := v.isLt
  rw [decremented, BitVec.toNat_sub]
  split <;> simp <;> omega

theorem decremented_eq (v : Word) :
    decremented v = BitVec.ofNat 32 (if v.toNat = 0 then 2 ^ 32 - 1 else v.toNat - 1) := by
  rw [← decremented_toNat, BitVec.ofNat_toNat, BitVec.setWidth_eq]

theorem zeroFlagOf_decremented (v : Word) : zeroFlagOf (decremented v) = decide (v.toNat = 1) := by
  rw [zeroFlagOf_eq, decremented_toNat, decide_eq_decide]
  split <;> omega

/-! ### Arithmetic -/

/-- Settles O36: the result and the zero flag as numbers. -/
theorem incrementAndDecrement : Obligations.IncrementAndDecrement := by
  refine fun s => ⟨?increment, ?decrement⟩
  case increment =>
    rw [← incremented_eq, ← zeroFlagOf_incremented]
    rfl
  case decrement =>
    rw [← decremented_eq, ← zeroFlagOf_decremented]
    rfl

/-- Settles O37: the same result and flag, read from the register and written to it. -/
theorem incrementAndDecrementRegister : Obligations.IncrementAndDecrementRegister := by
  refine fun s reg v hreg => ⟨?increment, ?decrement⟩
  case increment =>
    rw [← incremented_eq, ← zeroFlagOf_incremented, exec, execIncrementRegister, State.readReg_ok hreg, State.orRaise_ok,
      State.writeReg_ok _ (lt_nreg_of_getElem? hreg)]
    rfl
  case decrement =>
    rw [← decremented_eq, ← zeroFlagOf_decremented, exec, execDecrementRegister, State.readReg_ok hreg, State.orRaise_ok,
      State.writeReg_ok _ (lt_nreg_of_getElem? hreg)]
    rfl

theorem accOp_ok {s : State} {reg : RegIdx} {v : Word} (f : Word → Word → Word) (h : s.regs[reg.toNat]? = some v) :
    s.accOp reg f = .next (s.setAcc (f s.acc v)) := by
  rw [State.accOp, State.readReg_ok h, State.orRaise_ok]

/-- Settles O38: the three operations of words, as numbers modulo 2^32. -/
theorem addSubMul : Obligations.AddSubMul := by
  intro s reg v hreg
  have hacc := s.acc.isLt
  have hv := v.isLt
  have hadd : s.acc + v = BitVec.ofNat 32 ((s.acc.toNat + v.toNat) % 2 ^ 32) := BitVec.eq_of_toNat_eq (by simp)
  have hsub : s.acc - v = BitVec.ofNat 32 ((2 ^ 32 + s.acc.toNat - v.toNat) % 2 ^ 32) := by
    apply BitVec.eq_of_toNat_eq
    rw [BitVec.toNat_sub, BitVec.toNat_ofNat, Nat.mod_mod]
    congr 1
    omega
  have hmul : s.acc * v = BitVec.ofNat 32 (s.acc.toNat * v.toNat % 2 ^ 32) := BitVec.eq_of_toNat_eq (by simp)
  rw [← hadd, ← hsub, ← hmul]
  exact ⟨accOp_ok (· + ·) hreg, accOp_ok (· - ·) hreg, accOp_ok (· * ·) hreg⟩

/-- Settles O39: the quotient and the remainder are those of the numbers. -/
theorem divideWithRemainder : Obligations.DivideWithRemainder := by
  refine fun s reg d hreg => ⟨fun hd => ⟨s.acc / d, s.acc % d, ?value, ?equation, ?bound⟩, fun hd => ?zero⟩
  case value =>
    have hdivide : divideWords s.acc d = .ok (s.acc / d, s.acc % d) := if_neg fun h => hd (congrArg BitVec.toNat h)
    rw [exec, execDiv, State.readReg_ok hreg, State.orRaise_ok, hdivide, State.orRaise_ok,
      State.writeReg_ok _ (lt_nreg_of_getElem? hreg)]
    rfl
  case equation =>
    rw [BitVec.toNat_udiv, BitVec.toNat_umod]
    exact (Nat.div_add_mod _ _).symm
  case bound =>
    rw [BitVec.toNat_umod]
    exact Nat.mod_lt _ (Nat.pos_of_ne_zero hd)
  case zero =>
    have hdivide : divideWords s.acc d = .error .divisionByZero := if_pos (BitVec.eq_of_toNat_eq hd)
    rw [Fails, exec, execDiv, State.readReg_ok hreg, State.orRaise_ok, hdivide]
    rfl

/-! ### Compare and the conditional jumps -/

theorem exec_compare {s : State} {reg : RegIdx} {v : Word} (h : s.regs[reg.toNat]? = some v) :
    exec (.compare reg) s = .next (s.setCf (compareWords s.acc v)) := by
  rw [exec, execCompare, State.readReg_ok h, State.orRaise_ok]

/-- The relation a comparison flag stands for is the relation of the numbers (43_arithmetic_compare.md R205). -/
theorem compareWords_cases (a b : Word) :
    (compareWords a b = .less ∧ a.toNat < b.toNat) ∨ (compareWords a b = .equal ∧ a.toNat = b.toNat) ∨
      (compareWords a b = .greater ∧ b.toNat < a.toNat) := by
  unfold compareWords
  split
  · next hlt => exact .inl ⟨rfl, hlt⟩
  · next hge =>
    split
    · next heq => exact .inr (.inl ⟨rfl, congrArg BitVec.toNat heq⟩)
    · next hne =>
      have hne : a.toNat ≠ b.toNat := fun h => hne (BitVec.eq_of_toNat_eq h)
      exact .inr (.inr ⟨rfl, by omega⟩)

/-- Settles O40: the three relations exclude each other. -/
theorem compareSetsTheComparisonFlag : Obligations.CompareSetsTheComparisonFlag := by
  refine fun s reg v hreg => ⟨_, exec_compare hreg, ?_⟩
  rcases compareWords_cases s.acc v with ⟨hc, h⟩ | ⟨hc, h⟩ | ⟨hc, h⟩ <;> rw [hc]
  case inl => exact ⟨iff_of_true rfl h, iff_of_false nofun (by omega), iff_of_false nofun (by omega)⟩
  case inr.inl => exact ⟨iff_of_false nofun (by omega), iff_of_true rfl h, iff_of_false nofun (by omega)⟩
  case inr.inr => exact ⟨iff_of_false nofun (by omega), iff_of_false nofun (by omega), iff_of_true rfl h⟩

/-- Settles O42: each jump tests its own condition, which for one value of its flag computes. -/
theorem conditionalJumpTruthTables : Obligations.ConditionalJumpTruthTables := by
  intro s addr taken
  simp only [exec_jumpEqual, exec_jumpNotEqual, exec_jumpGreater, exec_jumpLess, exec_jumpGreaterEqual, exec_jumpLessEqual,
    exec_jumpZero, exec_jumpNonzero]
  refine ⟨fun h => ?less, fun h => ?equal, fun h => ?greater, fun h => ?zero, fun h => ?nonzero⟩ <;> rw [h]
  case less | equal | greater => exact ⟨rfl, rfl, rfl, rfl, rfl, rfl⟩
  case zero | nonzero => exact ⟨rfl, rfl⟩

/-! The conditions of the comparison jumps on the flag a `Compare` leaves: the third column of the table in 44_conditional_jumps.md
section 2. -/

section

variable (a b : Word)

theorem condLess_compareWords : condLess (compareWords a b) = decide (a.toNat < b.toNat) := by
  rcases compareWords_cases a b with ⟨hc, h⟩ | ⟨hc, h⟩ | ⟨hc, h⟩ <;> rw [hc, eq_comm]
  · exact decide_eq_true h
  · exact decide_eq_false (by omega)
  · exact decide_eq_false (by omega)

theorem condGreater_compareWords : condGreater (compareWords a b) = decide (b.toNat < a.toNat) := by
  rcases compareWords_cases a b with ⟨hc, h⟩ | ⟨hc, h⟩ | ⟨hc, h⟩ <;> rw [hc, eq_comm]
  · exact decide_eq_false (by omega)
  · exact decide_eq_false (by omega)
  · exact decide_eq_true h

theorem condEqual_compareWords : condEqual (compareWords a b) = decide (a = b) := by
  rcases compareWords_cases a b with ⟨hc, h⟩ | ⟨hc, h⟩ | ⟨hc, h⟩ <;> rw [hc, eq_comm]
  · exact decide_eq_false fun heq => by rw [heq] at h; exact Nat.lt_irrefl _ h
  · exact decide_eq_true (BitVec.eq_of_toNat_eq h)
  · exact decide_eq_false fun heq => by rw [heq] at h; exact Nat.lt_irrefl _ h

end

/-- Settles O43: the flag a `Compare` left stands for the relation of the words it compared, whatever the state is by then; the other
three conditions are the negations of these. -/
theorem jumpsAfterACompare : Obligations.JumpsAfterACompare := by
  refine fun s reg v hreg => ⟨_, exec_compare hreg, fun u addr hcf => ?_⟩
  have hnotEqual : condNotEqual u.cf = !condEqual u.cf := rfl
  have hgreaterEqual : condGreaterEqual u.cf = !condLess u.cf := rfl
  have hlessEqual : condLessEqual u.cf = !condGreater u.cf := rfl
  simp only [exec_jumpEqual, exec_jumpNotEqual, exec_jumpGreater, exec_jumpLess, exec_jumpGreaterEqual, exec_jumpLessEqual, jumpIf_eq,
    hnotEqual, hgreaterEqual, hlessEqual]
  simp only [hcf, State.setCf_cf, condEqual_compareWords, condGreater_compareWords, condLess_compareWords]
  simp only [Bool.not_eq_true', decide_eq_true_eq, decide_eq_false_iff_not, Nat.not_lt]
  simp only [ite_not, and_self]

end Sys2Proof.Machine

/-! `CopyCodeMemory`, the syscalls and the text they print (46_copy_syscall.md R255, R260 to R264). -/

namespace Sys2Proof.Machine

/-! ### `CopyCodeMemory` and `Syscall` -/

theorem exec_copyCodeMemory {s : State} {source size : Word} (hsource : source.toNat + size.toNat ≤ s.exe.length) :
    exec (.copyCodeMemory source size) s =
      if s.inMem s.acc.toNat size.toNat then
        .next (s.setMem (s.mem.writeBytes s.acc.toNat ((s.exe.drop source.toNat).take size.toNat)))
      else .next (s.raise (.memoryOutOfBounds s.acc)) := by
  rw [exec, execCopyCodeMemory, State.exeRead_ok hsource, State.orRaise_ok]

/-- Settles O44: the bytes read from `EXE` are written to `MEM`, and the source is judged before the destination. -/
theorem copyCodeMemoryCopies : Obligations.CopyCodeMemoryCopies := by
  refine fun s source size => ⟨fun hsource hdest => ?copies, fun hsource => ?source, fun hsource hdest => ?destination⟩
  case copies =>
    have hlength : ((s.exe.drop source.toNat).take size.toNat).length = size.toNat := by
      rw [List.length_take, List.length_drop]
      omega
    have hholds := holdsAt_writeBytes s.mem s.acc.toNat ((s.exe.drop source.toNat).take size.toNat)
    refine ⟨_, (exec_copyCodeMemory hsource).trans (if_pos (decide_eq_true hdest)), fun k hk => ?_, fun a ha => ?_⟩
    · have hbyte : s.exe[source.toNat + k]? = some s.exe[source.toNat + k] := List.getElem?_eq_getElem (by omega)
      rw [hholds.bytes (k := k) (by rw [List.getElem?_take_of_lt hk, List.getElem?_drop, hbyte]), hbyte]
    · exact hholds.outside a (by rwa [hlength])
  case source => exact fails_of_orRaise (State.exeRead_error hsource) rfl
  case destination =>
    exact (exec_copyCodeMemory hsource).trans (if_neg (by simpa [State.inMem] using hdest))

/-- Settles O45: the dispatch computes for the three indices, and what `cstr` answers is printed or raised. -/
theorem syscallDispatch : Obligations.SyscallDispatch := by
  refine fun s => ⟨fun bytes hcstr => ?prints, fun c hcstr => ⟨fails_of_orRaise hcstr rfl, fails_of_orRaise hcstr rfl⟩, rfl,
    fun index hindex => ?unknown⟩
  case prints =>
    have hprint : ∀ k : List Byte → Host.Outcome State Fault Refusal, s.orRaise (s.cstr s.acc) k = k bytes := fun k => by
      rw [hcstr, State.orRaise_ok]
    refine ⟨(hprint _).trans ?_, hprint _⟩
    rw [List.append_assoc]
    rfl
  case unknown =>
    rw [Fails, exec, execSyscall, if_neg (by omega), if_neg (by omega), if_neg (by omega)]
    rfl

/-! ### Strings -/

theorem Memory.readBytes_eq_of_read {m : Memory} {a : Nat} {bytes : List Byte}
    (h : ∀ k b, bytes[k]? = some b → m.read (a + k) = b) : m.readBytes a bytes.length = bytes := by
  refine List.ext_getElem? fun k => ?_
  by_cases hk : k < bytes.length
  · have hb : bytes[k]? = some bytes[k] := List.getElem?_eq_getElem hk
    rw [Memory.readBytes_getElem? _ _ _ _ hk, h k _ hb, hb]
  · rw [List.getElem?_eq_none (by simpa using hk), List.getElem?_eq_none (by simpa using hk)]

/-- Settles O46: the scan from `a` to the end of `MEM` finds the first zero byte, or none. -/
theorem stringsEndAtTheFirstZeroByte : Obligations.StringsEndAtTheFirstZeroByte := by
  refine fun s a => ⟨fun hout => if_pos hout, fun hin hnone => ?unterminated, fun bytes hin hzero hbytes => ?terminated⟩
  case unterminated =>
    have hscan := Memory.untilNul_none (m := s.mem) (n := s.memSize.toNat - a.toNat) (a := a.toNat) fun k hk =>
      hnone k (by omega)
    rw [State.cstr, if_neg (by omega), hscan]
  case terminated =>
    have hscan := Memory.untilNul_some (m := s.mem) (n := s.memSize.toNat - a.toNat) (by omega) hzero fun k hk => by
      obtain ⟨hread, hne⟩ := hbytes k bytes[k] (List.getElem?_eq_getElem hk)
      rwa [hread]
    rw [Memory.readBytes_eq_of_read fun k b hb => (hbytes k b hb).1] at hscan
    rw [State.cstr, if_neg (by omega), hscan]

/-! ### UTF-8: the greedy check against the table -/

/-- `q` is a sequence of this row of the table. -/
def MatchesRow (row : List (Nat × Nat)) (q : List Byte) : Prop :=
  List.Forall₂ (fun range b => range.1 ≤ b.toNat ∧ b.toNat ≤ range.2) row q

theorem utf8Strip_some {row : List (Nat × Nat)} {bs rest : List Byte} :
    utf8Strip row bs = some rest ↔ ∃ q, MatchesRow row q ∧ bs = q ++ rest := by
  constructor
  · intro h
    induction row generalizing bs with
    | nil => exact ⟨[], .nil, Option.some.inj h⟩
    | cons range row ih =>
      cases bs with
      | nil => cases h
      | cons b bs =>
        rw [utf8Strip] at h
        split at h
        · next hb =>
          obtain ⟨q, hq, rfl⟩ := ih h
          exact ⟨b :: q, .cons hb hq, rfl⟩
        · cases h
  · rintro ⟨q, hq, rfl⟩
    induction hq with
    | nil => rfl
    | cons hb _ ih =>
      rw [List.cons_append, utf8Strip, if_pos hb]
      exact ih

/-- The table as the statement writes it out: a row is as long as its sequences, so the length of `q` leaves few rows to compare. -/
theorem utf8Sequence_iff {q : List Byte} : Utf8Sequence q ↔ ∃ row ∈ utf8Table, MatchesRow row q := by
  match q with
  | [] => simp [Utf8Sequence, utf8Table, MatchesRow]
  | [a] => simp [Utf8Sequence, utf8Table, MatchesRow]
  | [a, b] => simp [Utf8Sequence, utf8Table, MatchesRow]
  | [a, b, c] =>
    simp [Utf8Sequence, utf8Table, MatchesRow]
    omega
  | [a, b, c, d] =>
    simp [Utf8Sequence, utf8Table, MatchesRow]
    omega
  | _ :: _ :: _ :: _ :: _ :: _ => simp [Utf8Sequence, utf8Table, MatchesRow]

/-- How many bytes a sequence with this lead byte has. -/
def utf8Length (lead : Byte) : Nat :=
  if lead.toNat ≤ 0x7F then 1 else if lead.toNat ≤ 0xDF then 2 else if lead.toNat ≤ 0xEF then 3 else 4

/-- The ranges of the lead bytes of different lengths do not meet. -/
theorem Utf8Sequence.exists_lead {q : List Byte} (h : Utf8Sequence q) :
    ∃ lead rest, q = lead :: rest ∧ q.length = utf8Length lead := by
  match q, h with
  | [a], h =>
    simp only [Utf8Sequence] at h
    exact ⟨a, [], rfl, by rw [utf8Length, if_pos h]; rfl⟩
  | [a, b], h =>
    simp only [Utf8Sequence] at h
    exact ⟨a, [b], rfl, by rw [utf8Length, if_neg (by omega), if_pos (by omega)]; rfl⟩
  | [a, b, c], h =>
    simp only [Utf8Sequence] at h
    exact ⟨a, [b, c], rfl, by rw [utf8Length, if_neg (by omega), if_neg (by omega), if_pos (by omega)]; rfl⟩
  | [a, b, c, d], h =>
    simp only [Utf8Sequence] at h
    exact ⟨a, [b, c, d], rfl, by rw [utf8Length, if_neg (by omega), if_neg (by omega), if_neg (by omega)]; rfl⟩

/-- No bytes begin with two different sequences. -/
theorem Utf8Sequence.rest_eq {q q' rest rest' : List Byte} (h : Utf8Sequence q) (h' : Utf8Sequence q')
    (heq : q ++ rest = q' ++ rest') : rest = rest' := by
  obtain ⟨lead, tail, rfl, hlength⟩ := h.exists_lead
  obtain ⟨lead', tail', rfl, hlength'⟩ := h'.exists_lead
  obtain rfl : lead = lead' := (List.cons.inj heq).1
  exact (List.append_inj heq (hlength.trans hlength'.symm)).2

theorem utf8Next_some {bs rest : List Byte} : utf8Next bs = some rest ↔ ∃ q, Utf8Sequence q ∧ bs = q ++ rest := by
  constructor
  · intro h
    obtain ⟨row, hrow, hstrip⟩ := List.exists_of_findSome?_eq_some h
    obtain ⟨q, hq, rfl⟩ := utf8Strip_some.1 hstrip
    exact ⟨q, utf8Sequence_iff.2 ⟨row, hrow, hq⟩, rfl⟩
  · rintro ⟨q, hq, rfl⟩
    obtain ⟨row, hrow, hmatch⟩ := utf8Sequence_iff.1 hq
    have hstrip : utf8Strip row (q ++ rest) = some rest := utf8Strip_some.2 ⟨q, hmatch, rfl⟩
    obtain ⟨rest', hnext⟩ : ∃ rest', utf8Next (q ++ rest) = some rest' :=
      Option.isSome_iff_exists.1 (List.findSome?_isSome_iff.2 ⟨row, hrow, by rw [hstrip]; rfl⟩)
    obtain ⟨row', hrow', hstrip'⟩ := List.exists_of_findSome?_eq_some hnext
    obtain ⟨q', hq', heq⟩ := utf8Strip_some.1 hstrip'
    rw [hnext, hq.rest_eq (utf8Sequence_iff.2 ⟨row', hrow', hq'⟩) heq]

theorem flatten_of_utf8ValidFrom {n : Nat} {bs : List Byte} (h : utf8ValidFrom n bs = true) :
    ∃ sequences : List (List Byte), bs = sequences.flatten ∧ ∀ q ∈ sequences, Utf8Sequence q := by
  induction n generalizing bs with
  | zero =>
    cases bs with
    | nil => exact ⟨[], rfl, nofun⟩
    | cons b bs => cases h
  | succ n ih =>
    cases bs with
    | nil => exact ⟨[], rfl, nofun⟩
    | cons b bs =>
      rw [utf8ValidFrom] at h
      split at h
      · cases h
      · next rest hnext =>
        obtain ⟨q, hq, hbytes⟩ := utf8Next_some.1 hnext
        obtain ⟨sequences, rfl, hsequences⟩ := ih h
        exact ⟨q :: sequences, hbytes, List.forall_mem_cons.2 ⟨hq, hsequences⟩⟩

theorem utf8ValidFrom_flatten {sequences : List (List Byte)} (h : ∀ q ∈ sequences, Utf8Sequence q) {n : Nat}
    (hn : sequences.flatten.length ≤ n) : utf8ValidFrom n sequences.flatten = true := by
  induction sequences generalizing n with
  | nil => cases n <;> rfl
  | cons q sequences ih =>
    obtain ⟨hq, hsequences⟩ := List.forall_mem_cons.1 h
    obtain ⟨lead, tail, rfl, -⟩ := hq.exists_lead
    have hnext : utf8Next (lead :: tail ++ sequences.flatten) = some sequences.flatten := utf8Next_some.2 ⟨_, hq, rfl⟩
    rw [List.flatten_cons, List.length_append, List.length_cons] at hn
    obtain ⟨n, rfl⟩ : ∃ k, n = k + 1 := ⟨n - 1, by omega⟩
    rw [List.flatten_cons, List.cons_append, utf8ValidFrom, ← List.cons_append, hnext]
    exact ih hsequences (by omega)

theorem utf8Valid_iff {bytes : List Byte} : utf8Valid bytes = true ↔
    ∃ sequences : List (List Byte), bytes = sequences.flatten ∧ ∀ q ∈ sequences, Utf8Sequence q := by
  refine ⟨flatten_of_utf8ValidFrom, ?_⟩
  rintro ⟨sequences, rfl, hsequences⟩
  exact utf8ValidFrom_flatten hsequences (Nat.le_refl _)

/-- Settles O47: a row of the table is a kind of `Utf8Sequence`, and the lead byte says where a sequence ends, so the greedy check
misses none; an ASCII byte is a sequence. -/
theorem utf8ValidityIsTheTable : Obligations.Utf8ValidityIsTheTable := by
  refine ⟨fun _ => utf8Valid_iff, fun bytes hascii => utf8Valid_iff.2 ⟨bytes.map ([·]), ?_, ?_⟩⟩
  · exact (List.flatMap_singleton' bytes).symm
  · rintro q hq
    obtain ⟨b, hb, rfl⟩ := List.mem_map.1 hq
    exact Nat.le_of_lt_succ (hascii b hb)

/-! ### Decimal numbers -/

theorem digitByte_toNat {d : Nat} (h : d < 10) : (digitByte d).toNat = 0x30 + d := by
  rw [digitByte, BitVec.toNat_ofNat]
  omega

/-- The digits of a number other than 0, as the library lists them, the lowest first. -/
theorem decimalFrom_eq_digits {n v : Nat} (hv : v ≠ 0) (h : v < 10 ^ n) (spelled : List Byte) :
    decimalFrom n v spelled = (Nat.digits 10 v).reverse.map digitByte ++ spelled := by
  induction n generalizing v spelled with
  | zero => omega
  | succ n ih =>
    have hdigits : Nat.digits 10 v = v % 10 :: Nat.digits 10 (v / 10) := Nat.digits_def' (by decide) (Nat.pos_of_ne_zero hv)
    rw [decimalFrom, hdigits]
    split
    · next hlt =>
      rw [Nat.div_eq_of_lt hlt, Nat.mod_eq_of_lt hlt, Nat.digits_zero]
      rfl
    · next hge =>
      rw [ih (by omega) (by rw [Nat.pow_succ] at h; omega), List.reverse_cons, List.map_append, List.append_assoc]
      rfl

/-- The value in base ten of ASCII digits, the highest first. -/
theorem foldl_digitByte {ds : List Nat} (h : ∀ d ∈ ds, d < 10) :
    (ds.reverse.map digitByte).foldl (fun n b => 10 * n + (b.toNat - 0x30)) 0 = Nat.ofDigits 10 ds := by
  rw [List.foldl_map, List.foldl_reverse]
  induction ds with
  | nil => rfl
  | cons d ds ih =>
    obtain ⟨hd, hds⟩ := List.forall_mem_cons.1 h
    rw [List.foldr_cons, ih hds, digitByte_toNat hd, Nat.ofDigits_cons, Nat.add_sub_cancel_left, Nat.add_comm]

theorem decimal_eq_digits {v : Word} (hv : v.toNat ≠ 0) : decimal v = (Nat.digits 10 v.toNat).reverse.map digitByte := by
  have hlt := v.isLt
  rw [decimal, decimalFrom_eq_digits hv (by omega), List.append_nil]

/-- Settles O48: 0 is spelled "0", and any other word by its digits, the highest of which is not 0. -/
theorem decimalSpellsTheUnsignedValue : Obligations.DecimalSpellsTheUnsignedValue := by
  intro v
  by_cases hv : v.toNat = 0
  · obtain rfl : v = 0 := BitVec.eq_of_toNat_eq hv
    decide
  · have hdigit : ∀ d ∈ Nat.digits 10 v.toNat, d < 10 := fun d hd => Nat.digits_lt_base (by decide) hd
    have hne : Nat.digits 10 v.toNat ≠ [] := Nat.digits_ne_nil_iff_ne_zero.2 hv
    rw [decimal_eq_digits hv]
    refine ⟨fun b hb => ?ascii, ?nonempty, ?atMostTen, ?value, fun hzero => ?leading⟩
    case ascii =>
      obtain ⟨d, hd, rfl⟩ := List.mem_map.1 hb
      have hd := hdigit d (List.mem_reverse.1 hd)
      rw [digitByte_toNat hd]
      omega
    case nonempty => simpa using Nat.succ_le_of_lt (List.length_pos_of_ne_nil hne)
    case atMostTen =>
      have hlt := v.isLt
      simpa using (Nat.digits_length_le_iff (by decide : 1 < 10) v.toNat).2 (by omega)
    case value => rw [foldl_digitByte hdigit, Nat.ofDigits_digits]
    case leading =>
      have hlast := Nat.getLast_digit_ne_zero 10 hv
      rw [List.head?_map, List.head?_reverse, List.getLast?_eq_getLast_of_ne_nil hne, Option.map_some] at hzero
      have hbyte := congrArg BitVec.toNat (Option.some.inj hzero)
      rw [digitByte_toNat (hdigit _ (List.getLast_mem hne))] at hbyte
      exact absurd (Nat.add_left_cancel hbyte) hlast

end Sys2Proof.Machine

/-! Patching a jump placeholder (30_encoding.md R123, R127). -/

namespace Sys2Proof.Builder

/-- A mnemonic that takes a target takes every target, and the instruction is of that mnemonic and has that target. -/
theorem withTarget_of_some {m : Mnemonic} {addr : Word} {i : Instr} (h : withTarget m addr = some i) :
    i.mnemonic = m ∧ ∀ addr', ∃ j, withTarget m addr' = some j ∧ (i = j → addr = addr') := by
  cases m with
  | jump | call | jumpEqual | jumpNotEqual | jumpGreater | jumpLess | jumpGreaterEqual | jumpLessEqual | jumpZero | jumpNonzero =>
    obtain rfl := Option.some.inj h
    exact ⟨rfl, fun _ => ⟨_, rfl, fun heq => by cases heq; rfl⟩⟩
  | _ => cases h

theorem resolve_ok {prog : List Instr} {k : Nat} (hk : k < prog.length) (haddress : address prog k ≤ Config.maxWord.toNat) :
    resolve prog k = .ok (BitVec.ofNat 32 (address prog k)) := by
  rw [resolve, if_neg (Nat.not_le.2 hk), if_neg (Nat.not_lt.2 haddress)]

theorem patchJump_of_not_placeholder {prog : List Instr} {idx : Nat} {i : Instr} (hi : prog[idx]? = some i)
    (hnot : withTarget i.mnemonic sentinel ≠ some i) (target : Nat) : patchJump prog idx target = .error .notPlaceholder := by
  simp only [patchJump, hi, if_neg hnot]

theorem patchJump_placeholder {prog : List Instr} {idx target : Nat} {i j : Instr} {addr : Word} (hi : prog[idx]? = some i)
    (hplaceholder : withTarget i.mnemonic sentinel = some i) (haddr : resolve prog target = .ok addr)
    (hj : withTarget i.mnemonic addr = some j) : patchJump prog idx target = .ok (prog.set idx j) := by
  simp only [patchJump, hi, if_pos hplaceholder, haddr, hj]

/-- Settles O49: what has the sentinel as its target is a placeholder, and an address below it is another target. -/
theorem patchingAJumpPlaceholder : Obligations.PatchingAJumpPlaceholder := by
  intro prog idx target
  refine ⟨fun i hi hnot => patchJump_of_not_placeholder hi (hnot _) target, fun m i hplaceholder hi htarget haddress => ?_⟩
  obtain ⟨hm, htargets⟩ := withTarget_of_some hplaceholder
  obtain ⟨j, hj, hdiffer⟩ := htargets (BitVec.ofNat 32 (address prog target))
  obtain ⟨hmj, -⟩ := withTarget_of_some hj
  subst hm
  have haddress : address prog target < 2 ^ 32 - 1 := haddress
  have hresolve := resolve_ok htarget (Nat.le_of_lt haddress)
  refine ⟨j, hj, patchJump_placeholder hi hplaceholder hresolve hj, fun other => ?_⟩
  have hset : (prog.set idx j)[idx]? = some j := List.getElem?_set_self (List.getElem?_eq_some_iff.1 hi).1
  refine patchJump_of_not_placeholder hset (fun hagain => ?_) other
  have hsame : sentinel = BitVec.ofNat 32 (address prog target) := hdiffer (Option.some.inj (hplaceholder.symm.trans (hmj ▸ hagain)))
  have hsentinel := congrArg BitVec.toNat hsame
  rw [sentinel, Config.maxWord_toNat, BitVec.toNat_ofNat] at hsentinel
  omega

end Sys2Proof.Builder
